-- ==== Sys2Proof/Word.lean ====
section
/-! DEFINITION. The word types of the core: bytes, 16-bit words, 12-bit addresses, register indices. -/

namespace Sys2Proof

/-- A byte: a register, a memory cell, a timer value, the immediate NN (R20, R29, R37, R71). -/
abbrev Byte := BitVec 8

/-- A word: PC, I, a stack entry, an opcode, a key mask (R17, R23, R26, R27, R33). -/
abbrev Word := BitVec 16

/-- The 12-bit address field NNN of an opcode (R71). -/
abbrev Addr := BitVec 12

/-- A register index 0x0 ... 0xF: the fields X and Y, and what HALT names (R20, R32, R73). -/
abbrev RegIx := Fin 16

/-- A sprite's row count, the field N of DXYN (R71, R73). -/
abbrev Count := Fin 16

end Sys2Proof
end

