-- ==== Sys2Proof/Syntax.lean ====
section
/-! DEFINITION. The instructions as syntax: one constructor for each of the 35 rows of
spec/opcode_table.json (30_encoding.md R75), in the table's order. -/

namespace Sys2Proof

/-- The 35 opcodes of the original CHIP-8 instruction set (R2, R75). -/
inductive Instr where
  /-- 00E0 `CLS` (R181) -/
  | cls
  /-- 00EE `RET` (R112) -/
  | ret
  /-- 0NNN `SYS nnn`, any word of family 0 other than 00E0 and 00EE (R111) -/
  | sys (nnn : Addr)
  /-- 1NNN `JP nnn` (R114) -/
  | jp (nnn : Addr)
  /-- 2NNN `CALL nnn` (R113) -/
  | call (nnn : Addr)
  /-- 3XNN `SE Vx, nn` (R115) -/
  | seImm (x : RegIx) (nn : Byte)
  /-- 4XNN `SNE Vx, nn` (R116) -/
  | sneImm (x : RegIx) (nn : Byte)
  /-- 5XY0 `SE Vx, Vy` (R117) -/
  | seReg (x y : RegIx)
  /-- 9XY0 `SNE Vx, Vy` (R118) -/
  | sneReg (x y : RegIx)
  /-- 6XNN `LD Vx, nn` (R134) -/
  | ldImm (x : RegIx) (nn : Byte)
  /-- 7XNN `ADD Vx, nn` (R135) -/
  | addImm (x : RegIx) (nn : Byte)
  /-- 8XY0 `LD Vx, Vy` (R136) -/
  | ldReg (x y : RegIx)
  /-- 8XY1 `OR Vx, Vy` (R137) -/
  | orReg (x y : RegIx)
  /-- 8XY2 `AND Vx, Vy` (R138) -/
  | andReg (x y : RegIx)
  /-- 8XY3 `XOR Vx, Vy` (R139) -/
  | xorReg (x y : RegIx)
  /-- 8XY4 `ADD Vx, Vy` (R140) -/
  | addReg (x y : RegIx)
  /-- 8XY5 `SUB Vx, Vy` (R141) -/
  | sub (x y : RegIx)
  /-- 8XY7 `SUBN Vx, Vy` (R142) -/
  | subn (x y : RegIx)
  /-- 8XY6 `SHR Vx, Vy` (R143) -/
  | shr (x y : RegIx)
  /-- 8XYE `SHL Vx, Vy` (R144) -/
  | shl (x y : RegIx)
  /-- ANNN `LD I, nnn` (R161) -/
  | ldI (nnn : Addr)
  /-- BNNN `JP V0, nnn` (R119) -/
  | jpV0 (nnn : Addr)
  /-- CXNN `RND Vx, nn` (R148) -/
  | rnd (x : RegIx) (nn : Byte)
  /-- DXYN `DRW Vx, Vy, n` (R185) -/
  | drw (x y : RegIx) (n : Count)
  /-- EX9E `SKP Vx` (R201) -/
  | skp (x : RegIx)
  /-- EXA1 `SKNP Vx` (R202) -/
  | sknp (x : RegIx)
  /-- FX07 `LD Vx, DT` (R204) -/
  | ldVxDt (x : RegIx)
  /-- FX15 `LD DT, Vx` (R205) -/
  | ldDtVx (x : RegIx)
  /-- FX18 `LD ST, Vx` (R206) -/
  | ldStVx (x : RegIx)
  /-- FX0A `LD Vx, K` (R207) -/
  | ldVxK (x : RegIx)
  /-- FX1E `ADD I, Vx` (R162) -/
  | addI (x : RegIx)
  /-- FX29 `LD F, Vx` (R163) -/
  | ldF (x : RegIx)
  /-- FX33 `LD B, Vx` (R165) -/
  | ldB (x : RegIx)
  /-- FX55 `LD [I], Vx` (R166) -/
  | storeRegs (x : RegIx)
  /-- FX65 `LD Vx, [I]` (R167) -/
  | loadRegs (x : RegIx)
  deriving DecidableEq, Repr

end Sys2Proof
end

