-- ==== Sys2Proof/Decode.lean ====
section
/-! DEFINITION. The instruction decoder of 30_encoding.md (R70 to R80) and its encoder. -/

namespace Sys2Proof

/-! ## Fields (R71) -/

/-- F, op[15:12]: the opcode family. -/
def opFamily (op : Word) : BitVec 4 := op.extractLsb' 12 4

/-- X, op[11:8]: the first register index. -/
def opX (op : Word) : RegIx := (op.extractLsb' 8 4).toFin

/-- Y, op[7:4]: the second register index. -/
def opY (op : Word) : RegIx := (op.extractLsb' 4 4).toFin

/-- N, op[3:0], as a count. -/
def opN (op : Word) : Count := (op.extractLsb' 0 4).toFin

/-- N, op[3:0], as the sub-operation nibble of families 5, 8 and 9. -/
def opSub (op : Word) : BitVec 4 := op.extractLsb' 0 4

/-- NN, op[7:0]: an immediate, or the sub-operation byte of families E and F. -/
def opNN (op : Word) : Byte := op.extractLsb' 0 8

/-- NNN, op[11:0]: a 12-bit address. -/
def opNNN (op : Word) : Addr := op.extractLsb' 0 12

/-! ## Decoding -/

/-- Why bytes spell no instruction. -/
inductive DecodeError where
  /-- a word of R77: it matches no instruction of its family -/
  | unexpected (op : Word)
  /-- fewer than the two bytes every instruction has (R70) -/
  | tooShort
  deriving DecidableEq, Repr

/-- Family 0 (R74, R78): CLS and RET match all 16 bits, every other word is SYS, whose meaning depends on
STRICT_SYS (R111, log 16). -/
def decodeFamily0 (op : Word) : Instr :=
  if op = 0x00E0#16 then .cls else if op = 0x00EE#16 then .ret else .sys (opNNN op)

/-- Family 8 (R74, R76): nine operations by the low nibble. -/
def decodeFamily8 (op : Word) : Except DecodeError Instr :=
  match (opSub op).toNat with
  | 0x0 => .ok (.ldReg (opX op) (opY op))
  | 0x1 => .ok (.orReg (opX op) (opY op))
  | 0x2 => .ok (.andReg (opX op) (opY op))
  | 0x3 => .ok (.xorReg (opX op) (opY op))
  | 0x4 => .ok (.addReg (opX op) (opY op))
  | 0x5 => .ok (.sub (opX op) (opY op))
  | 0x6 => .ok (.shr (opX op) (opY op))
  | 0x7 => .ok (.subn (opX op) (opY op))
  | 0xE => .ok (.shl (opX op) (opY op))
  | _ => .error (.unexpected op)

/-- Family E (R74): two operations by the low byte. -/
def decodeFamilyE (op : Word) : Except DecodeError Instr :=
  match (opNN op).toNat with
  | 0x9E => .ok (.skp (opX op))
  | 0xA1 => .ok (.sknp (opX op))
  | _ => .error (.unexpected op)

/-- Family F (R74): nine operations by the low byte. -/
def decodeFamilyF (op : Word) : Except DecodeError Instr :=
  match (opNN op).toNat with
  | 0x07 => .ok (.ldVxDt (opX op))
  | 0x0A => .ok (.ldVxK (opX op))
  | 0x15 => .ok (.ldDtVx (opX op))
  | 0x18 => .ok (.ldStVx (opX op))
  | 0x1E => .ok (.addI (opX op))
  | 0x29 => .ok (.ldF (opX op))
  | 0x33 => .ok (.ldB (opX op))
  | 0x55 => .ok (.storeRegs (opX op))
  | 0x65 => .ok (.loadRegs (opX op))
  | _ => .error (.unexpected op)

/-- The decode tree of R74, total on all 65536 words (R80). -/
def decode (op : Word) : Except DecodeError Instr :=
  match (opFamily op).toNat with
  | 0x0 => .ok (decodeFamily0 op)
  | 0x1 => .ok (.jp (opNNN op))
  | 0x2 => .ok (.call (opNNN op))
  | 0x3 => .ok (.seImm (opX op) (opNN op))
  | 0x4 => .ok (.sneImm (opX op) (opNN op))
  | 0x5 => if opSub op = 0 then .ok (.seReg (opX op) (opY op)) else .error (.unexpected op)
  | 0x6 => .ok (.ldImm (opX op) (opNN op))
  | 0x7 => .ok (.addImm (opX op) (opNN op))
  | 0x8 => decodeFamily8 op
  | 0x9 => if opSub op = 0 then .ok (.sneReg (opX op) (opY op)) else .error (.unexpected op)
  | 0xA => .ok (.ldI (opNNN op))
  | 0xB => .ok (.jpV0 (opNNN op))
  | 0xC => .ok (.rnd (opX op) (opNN op))
  | 0xD => .ok (.drw (opX op) (opY op) (opN op))
  | 0xE => decodeFamilyE op
  | _ => decodeFamilyF op

/-- The opcode of two bytes, the first the more significant (R57). -/
def wordOfBytes (hi lo : Byte) : Word := hi ++ lo

/-- The two bytes of an opcode in memory order, high byte first (R57, R82). -/
def bytesOfWord (op : Word) : Byte × Byte := (op.extractLsb' 8 8, op.extractLsb' 0 8)

/-- Decode the instruction at the head of a byte sequence: the instruction and the bytes after it. -/
def decodeBytes : List Byte → Except DecodeError (Instr × List Byte)
  | hi :: lo :: rest => (decode (wordOfBytes hi lo)).map fun i => (i, rest)
  | [_] | [] => .error .tooShort

/-- The opcode whose bits the opcode table numbers as w, of which nbits are given: bit 0 is the least
significant bit of the one 16-bit word, and every bit above nbits is 0. -/
def tableWord (nbits w : Nat) : Word := BitVec.ofNat 16 (w % 2 ^ nbits)

/-- The instruction the decoder reads from the bytes of a table word, laid out as the hardware stores them. -/
def decodeTableWord (nbits w : Nat) : Option Instr :=
  let (hi, lo) := bytesOfWord (tableWord nbits w)
  match decodeBytes [hi, lo] with
  | .ok (i, _) => some i
  | .error _ => none

/-! ## Encoding -/

/-- Format NNN (R72): the family digit and a 12-bit address. -/
def encNNN (f : BitVec 4) (nnn : Addr) : Word := f ++ nnn

/-- Formats XNN and X (R72): the family digit, X, and a byte. -/
def encXNN (f : BitVec 4) (x : RegIx) (nn : Byte) : Word := f ++ (BitVec.ofFin x : BitVec 4) ++ nn

/-- Formats XY and XYN (R72): the family digit, X, Y, and a nibble. -/
def encXYN (f : BitVec 4) (x y : RegIx) (n : BitVec 4) : Word :=
  f ++ (BitVec.ofFin x : BitVec 4) ++ (BitVec.ofFin y : BitVec 4) ++ n

/-- The word of an instruction, from the patterns of R75. -/
def encode : Instr → Word
  | .cls => 0x00E0#16
  | .ret => 0x00EE#16
  | .sys nnn => encNNN 0x0#4 nnn
  | .jp nnn => encNNN 0x1#4 nnn
  | .call nnn => encNNN 0x2#4 nnn
  | .seImm x nn => encXNN 0x3#4 x nn
  | .sneImm x nn => encXNN 0x4#4 x nn
  | .seReg x y => encXYN 0x5#4 x y 0x0#4
  | .sneReg x y => encXYN 0x9#4 x y 0x0#4
  | .ldImm x nn => encXNN 0x6#4 x nn
  | .addImm x nn => encXNN 0x7#4 x nn
  | .ldReg x y => encXYN 0x8#4 x y 0x0#4
  | .orReg x y => encXYN 0x8#4 x y 0x1#4
  | .andReg x y => encXYN 0x8#4 x y 0x2#4
  | .xorReg x y => encXYN 0x8#4 x y 0x3#4
  | .addReg x y => encXYN 0x8#4 x y 0x4#4
  | .sub x y => encXYN 0x8#4 x y 0x5#4
  | .subn x y => encXYN 0x8#4 x y 0x7#4
  | .shr x y => encXYN 0x8#4 x y 0x6#4
  | .shl x y => encXYN 0x8#4 x y 0xE#4
  | .ldI nnn => encNNN 0xA#4 nnn
  | .jpV0 nnn => encNNN 0xB#4 nnn
  | .rnd x nn => encXNN 0xC#4 x nn
  | .drw x y n => encXYN 0xD#4 x y (BitVec.ofFin n)
  | .skp x => encXNN 0xE#4 x 0x9E#8
  | .sknp x => encXNN 0xE#4 x 0xA1#8
  | .ldVxDt x => encXNN 0xF#4 x 0x07#8
  | .ldDtVx x => encXNN 0xF#4 x 0x15#8
  | .ldStVx x => encXNN 0xF#4 x 0x18#8
  | .ldVxK x => encXNN 0xF#4 x 0x0A#8
  | .addI x => encXNN 0xF#4 x 0x1E#8
  | .ldF x => encXNN 0xF#4 x 0x29#8
  | .ldB x => encXNN 0xF#4 x 0x33#8
  | .storeRegs x => encXNN 0xF#4 x 0x55#8
  | .loadRegs x => encXNN 0xF#4 x 0x65#8

end Sys2Proof
end

