-- ==== Sys2Proof/Config.lean ====
section
/-! DEFINITION. The implementation parameters of 00_scope.md R8 as plain data, and the free values. -/

namespace Sys2Proof

/-- The ALU profile of the two shift opcodes (R3, R143, R144). -/
inductive ShiftProfile where
  /-- shift register Y into X -/
  | original
  /-- shift X in place -/
  | modern
  deriving DecidableEq, Repr

/-- What EX9E and EXA1 do when V[X] names no key, that is V[X] is 0x10 or more (R203). -/
inductive KeyIndexPolicy where
  /-- the key counts as not pressed -/
  | notPressed
  /-- the low nibble of V[X] names the key -/
  | lowNibble
  /-- the step has no meaning: the model refuses it -/
  | refuse
  deriving DecidableEq, Repr

/-- The parameters a model takes (R8). They are fixed at construction and no transaction changes them (R267),
so the machine carries them in its state and a claim about every state holds for every configuration (log 1).
COST is a function from 16-bit opcodes to naturals (R9); `costRows` lists the opcodes whose cost differs from
`costBase`, so that every such function can be written down as data (log 2). -/
structure Config where
  /-- MEM_SIZE -/
  memSize : Nat
  /-- STACK_DEPTH -/
  stackDepth : Nat
  /-- DISPLAY_W -/
  displayW : Nat
  /-- DISPLAY_H -/
  displayH : Nat
  /-- FONT, 80 bytes -/
  font : List Byte
  /-- SHIFT_PROFILE -/
  shiftProfile : ShiftProfile
  /-- STRICT_SYS -/
  strictSys : Bool
  /-- KEY_INDEX_POLICY -/
  keyIndexPolicy : KeyIndexPolicy
  /-- TIMER_PERIOD -/
  timerPeriod : Nat
  /-- COST of every opcode not listed in `costRows` -/
  costBase : Nat
  /-- COST of single opcodes -/
  costRows : List (Word × Nat)
  /-- KEYWAIT_COST -/
  keywaitCost : Nat
  /-- FB0, the framebuffer after a successful reset, row by row -/
  fb0 : List (List Bool)
  deriving DecidableEq, Repr

/-- The random byte RND of the n-th draw when no byte is listed: a free value (R148, log 6). -/
opaque Config.freeByte : Nat → Byte

/-- What `doCycle()` returns on a faulting cycle, for the n-th draw: a free value (R97, log 9). -/
opaque Config.freeCost : Nat → Nat

/-- FRAME_UPDATED after a successful reset, for the n-th draw: a free value (R265, log 12). -/
opaque Config.freeFlag : Nat → Bool

end Sys2Proof
end

