-- ==== Sys2Proof/Machine/Defaults.lean ====
section
/-! DEFINITION. The configuration of `State.reset`: the defaults of 00_scope.md R8 and, where R8 gives none,
the values named in log entry 3. -/

namespace Sys2Proof.Machine

/-- The glyphs of R44, glyphs 0 to 7, five bytes each, top row first. -/
def fontLow : List Byte :=
  [0xF0, 0x90, 0x90, 0x90, 0xF0] ++ [0x20, 0x60, 0x20, 0x20, 0x70] ++
  [0xF0, 0x10, 0xF0, 0x80, 0xF0] ++ [0xF0, 0x10, 0xF0, 0x10, 0xF0] ++
  [0x90, 0x90, 0xF0, 0x10, 0x10] ++ [0xF0, 0x80, 0xF0, 0x10, 0xF0] ++
  [0xF0, 0x80, 0xF0, 0x90, 0xF0] ++ [0xF0, 0x10, 0x20, 0x40, 0x40]

/-- The glyphs of R44, glyphs 8 to F. -/
def fontHigh : List Byte :=
  [0xF0, 0x90, 0xF0, 0x90, 0xF0] ++ [0xF0, 0x90, 0xF0, 0x10, 0xF0] ++
  [0xF0, 0x90, 0xF0, 0x90, 0x90] ++ [0xE0, 0x90, 0xE0, 0x90, 0xE0] ++
  [0xF0, 0x80, 0x80, 0x80, 0xF0] ++ [0xE0, 0x90, 0x90, 0x90, 0xE0] ++
  [0xF0, 0x80, 0xF0, 0x80, 0xF0] ++ [0xF0, 0x80, 0xF0, 0x80, 0x80]

/-- The default FONT of R44. PRESUMED by the spec itself, which marks the bytes general knowledge (log 4). -/
def defaultFont : List Byte := fontLow ++ fontHigh

/-- A w by h framebuffer with every pixel off. -/
def blankPixels (w h : Nat) : List (List Bool) := List.replicate h (List.replicate w false)

/-- The configuration of `State.reset`: R8's defaults. SHIFT_PROFILE, TIMER_PERIOD, COST and
KEYWAIT_COST have no default: DESIGN CHOICE, log 3. -/
def defaultConfig : Config where
  memSize := 4096
  stackDepth := 16
  displayW := 64
  displayH := 32
  font := defaultFont
  shiftProfile := .original
  strictSys := true
  keyIndexPolicy := .notPressed
  timerPeriod := 10
  costBase := 1
  costRows := []
  keywaitCost := 1
  fb0 := blankPixels 64 32

end Sys2Proof.Machine
end

