-- ==== Sys2Proof/Machine/State.lean ====
section
/-! DEFINITION. The state of the core as plain data (10_state.md), the reasons a step stops, and the state
after reset. -/

namespace Sys2Proof.Machine

/-- The eight fail states, in the source's order (R230). -/
inductive FailCode where
  | ok
  | noProgram
  | programTooSmall
  | programTooLarge
  | stackOverflow
  | stackUnderflow
  | indexOutOfBounds
  | unexpectedOpcode
  deriving DecidableEq, Repr

/-- A countdown timer: its value and the cycle count at which it next falls (R29). -/
structure Timer where
  value : Byte
  deadline : Nat
  deriving DecidableEq, Repr

/-- The Keypad Port as the core sees it: what `getState()` answers now, and the snapshots of the coming
cycles where they are listed, soonest first (R14, R200, log 7). -/
structure KeypadPort where
  level : Word
  upcoming : List Word
  deriving DecidableEq, Repr

/-- A call of the Display Port's `invalidate()` or `invalidate(x, y, w, h)` (R181, R187). -/
inductive Invalidation where
  | whole
  | rect (x y w h : Nat)
  deriving DecidableEq, Repr

/-- The framebuffer, row by row from the top, each row from the left (R38). -/
abbrev Framebuffer := List (List Bool)

/-- The bytes of MEM that differ from the reset image of R51, by rising address (log 13). -/
abbrev Memory := List Host.Cell

/-- Everything the spec gives the machine (10_state.md), its configuration, and the inputs and outputs of the
block's interface (R14). INVENTORY.md lists each field with its rule. -/
structure State where
  /-- the parameters of R8, fixed at construction -/
  cfg : Config
  /-- whether the first `reset` has happened (R42) -/
  wasReset : Bool
  /-- V[0x0] ... V[0xF] (R20) -/
  v : Vector Byte 16
  /-- PC (R23) -/
  pc : Word
  /-- I (R26) -/
  i : Word
  /-- SP; the empty stack is STACK_DEPTH (R27) -/
  sp : Nat
  /-- STACK[0] ... STACK[STACK_DEPTH - 1] (R27) -/
  stack : List Word
  /-- DT and DT_DL (R29) -/
  delay : Timer
  /-- ST and ST_DL (R29) -/
  sound : Timer
  /-- CYC (R31) -/
  cyc : Nat
  /-- HALT; `none` is NONE, the state RUNNING (R32) -/
  halt : Option RegIx
  /-- KBD (R33) -/
  kbd : Word
  /-- KBD_PREV (R34) -/
  kbdPrev : Word
  /-- FAIL (R35, R230) -/
  fail : FailCode
  /-- MEM (R37, R50) -/
  mem : Memory
  /-- FB (R38) -/
  fb : Framebuffer
  /-- FRAME_UPDATED (R39) -/
  frameUpdated : Bool
  /-- the last invalidate call on the Display Port (R187, log 10) -/
  invalidated : Option Invalidation
  /-- the Keypad Port (R14, R92) -/
  keypad : KeypadPort
  /-- the random bytes of the coming CXNN, soonest first (R148, log 6) -/
  random : List Byte
  /-- how many free values have been drawn: the model's own counter (log 6, log 9, log 12) -/
  freeDraws : Nat
  /-- what the last `doCycle()` returned (R90, R96, log 9) -/
  lastCost : Nat
  deriving DecidableEq, Repr

/-- Why the machine has no step. -/
inductive Fault where
  /-- `doCycle()` while FAIL is not OK: raised by the step's gate (R91, R239). Safe: the spec gives no step. -/
  | notOk (code : FailCode)
  /-- `doCycle()` before the first `reset`: raised by the step's gate (R42, R91). Safe: the spec gives no step. -/
  | notReset
  deriving DecidableEq, Repr

/-- Why the model gives a step no meaning. -/
inductive Refusal where
  /-- an instruction without a meaning yet: raised by `exec` alone. Safe. -/
  | notModelled (mnemonic : String)
  /-- EX9E or EXA1 with V[X] = v of 0x10 or more under KEY_INDEX_POLICY = REFUSE: raised by their meanings,
  as R203 tells a model to. Safe. -/
  | keyIndex (v : Byte)
  deriving DecidableEq, Repr

/-- The machine right after a successful reset, the launch state of R18, with the values of R41 and R260, in
the configuration `defaultConfig`. A program is loaded from outside (log 5). -/
def State.reset : State where
  cfg := defaultConfig
  wasReset := true
  v := Vector.replicate 16 0
  pc := 0x200
  i := 0
  sp := defaultConfig.stackDepth
  stack := List.replicate defaultConfig.stackDepth 0
  delay := ⟨0, 0⟩
  sound := ⟨0, 0⟩
  cyc := 0
  halt := none
  kbd := 0
  kbdPrev := 0
  fail := .ok
  mem := []
  fb := defaultConfig.fb0
  frameUpdated := false
  invalidated := none
  keypad := ⟨0, []⟩
  random := []
  freeDraws := 0
  lastCost := 0

end Sys2Proof.Machine
end

