-- ==== Sys2Proof/Machine/Ops.lean ====
section
/-! DEFINITION. The named operations over registers, memory, stack, display and fail state, taking an
exception and the return from one, shared by every meaning. -/

namespace Sys2Proof.Machine

/-- The outcome of every meaning. -/
abbrev Result := Host.Outcome State Fault Refusal

/-! ## Constants of the core (R7) -/

/-- PROG_START -/
def progStart : Nat := 0x200

/-- The 3-bit code of a fail state (R35, R230). -/
def FailCode.code : FailCode → BitVec 3
  | .ok => 0
  | .noProgram => 1
  | .programTooSmall => 2
  | .programTooLarge => 3
  | .stackOverflow => 4
  | .stackUnderflow => 5
  | .indexOutOfBounds => 6
  | .unexpectedOpcode => 7

/-! ## Registers (R12, R20) -/

/-- V[x] -/
def State.reg (s : State) (x : RegIx) : Byte := s.v[x.val]

/-- `V[x] <- b` -/
def State.setReg (s : State) (x : RegIx) (b : Byte) : State :=
  { s with v := s.v.set x.val b }

/-- `PC <- t` -/
def State.setPc (s : State) (t : Word) : State := { s with pc := t }

/-- A taken skip adds one more instruction width, modulo 2^16 (R110). -/
def State.skipIf (s : State) (c : Bool) : State := if c then s.setPc (s.pc + 2) else s

/-- `I <- w` -/
def State.setI (s : State) (w : Word) : State := { s with i := w }

/-- `HALT <- h` -/
def State.setHalt (s : State) (h : Option RegIx) : State := { s with halt := h }

/-! ## Call stack (R27) -/

/-- STACK[k]; a position that does not exist, which no legal SP reaches, reads as 0 (log 15). -/
def State.stackAt (s : State) (k : Nat) : Word := s.stack.getD k 0

/-- `SP <- SP - 1; STACK[SP] <- w` (R113); called with SP above 0 only. -/
def State.push (s : State) (w : Word) : State :=
  { s with sp := s.sp - 1, stack := s.stack.set (s.sp - 1) w }

/-- `SP <- SP + 1`, the slot keeping its value (R112). -/
def State.pop (s : State) : State := { s with sp := s.sp + 1 }

/-! ## Memory (R50 to R56) -/

/-- What an address holds after reset with no program byte there: FONT at 0 ... 79, else 0 (R51). It is what
an unlisted address reads as (log 13). -/
def background (cfg : Config) (a : Nat) : Byte := if a < 80 then cfg.font.getD a 0 else 0

/-- The listed byte at an address. -/
def Memory.lookup (a : Nat) : Memory → Option Byte
  | [] => none
  | c :: m => if c.1 = a then some c.2 else Memory.lookup a m

/-- List a byte at an address, keeping the addresses rising. -/
def Memory.insert (a : Nat) (b : Byte) : Memory → Memory
  | [] => [(a, b)]
  | c :: m =>
    if a < c.1 then (a, b) :: c :: m
    else if c.1 = a then (a, b) :: m
    else c :: Memory.insert a b m

/-- Take an address off the list. -/
def Memory.erase (a : Nat) : Memory → Memory
  | [] => []
  | c :: m => if c.1 = a then m else c :: Memory.erase a m

/-- The byte at an address. -/
def Memory.read (cfg : Config) (m : Memory) (a : Nat) : Byte := (Memory.lookup a m).getD (background cfg a)

/-- Store a byte, keeping the canonical form: a byte equal to the background is not listed. -/
def Memory.write (cfg : Config) (m : Memory) (a : Nat) (b : Byte) : Memory :=
  if b = background cfg a then Memory.erase a m else Memory.insert a b m

/-- The canonical form: addresses strictly rising, no entry equal to what an unlisted address reads as. -/
abbrev Memory.wf (cfg : Config) (m : Memory) : Prop :=
  m.Pairwise (fun c d => c.1 < d.1) ∧ ∀ c ∈ m, c.2 ≠ background cfg c.1

/-- MEM[a], the byte `MemRead(a, 1)` returns for an address in range (R53). -/
def State.byte (s : State) (a : Nat) : Byte := Memory.read s.cfg s.mem a

/-- `MEM[a] <- b`, what `MemWrite(a, 1, b)` does for an address in range (R53). -/
def State.setByte (s : State) (a : Nat) (b : Byte) : State :=
  { s with mem := Memory.write s.cfg s.mem a b }

/-- The range check of R56: the n bytes from a (n at least 1) exist iff a + n - 1 < MEM_SIZE. Addresses are
unbounded naturals and never wrap (R55). -/
def State.inRange (s : State) (a n : Nat) : Bool := decide (a + n - 1 < s.cfg.memSize)

/-- The n bytes from a, in ascending address order (R60), after the range check. -/
def State.readBytes (s : State) (a n : Nat) : List Byte := (List.range n).map fun k => s.byte (a + k)

/-- Store bytes from a on, in ascending address order (R60), after the range check. -/
def State.writeBytes (s : State) (a : Nat) : List Byte → State
  | [] => s
  | b :: bs => (s.setByte a b).writeBytes (a + 1) bs

/-! ## Display (R38, R39) -/

/-- FB[x][y]; a position off the screen reads as off (log 14). -/
def Framebuffer.pixel (fb : Framebuffer) (x y : Nat) : Bool := ((fb[y]?.getD [])[x]?).getD false

/-- `FB[x][y] <- FB[x][y] ^ 1` -/
def Framebuffer.flip (fb : Framebuffer) (x y : Nat) : Framebuffer :=
  fb.modify y fun row => row.modify x fun p => !p

/-- FB[x][y] -/
def State.pixel (s : State) (x y : Nat) : Bool := s.fb.pixel x y

/-- Put a framebuffer in place. -/
def State.setFb (s : State) (fb : Framebuffer) : State := { s with fb := fb }

/-- Call the Display Port's invalidate: FRAME_UPDATED becomes true (R181, R187). -/
def State.invalidate (s : State) (r : Invalidation) : State :=
  { s with frameUpdated := true, invalidated := some r }

/-! ## Timers (R208, R213) -/

/-- `timer_write`: the value, and a deadline one TIMER_PERIOD after CYC (R208). -/
def State.timerWrite (s : State) (b : Byte) : Timer := ⟨b, s.cyc + s.cfg.timerPeriod⟩

/-- Put the delay timer in place. -/
def State.setDelay (s : State) (t : Timer) : State := { s with delay := t }

/-- Put the sound timer in place. -/
def State.setSound (s : State) (t : Timer) : State := { s with sound := t }

/-- `refresh(T, T_DL)` against the cycle count: at most one decrement (R213). -/
def Timer.refresh (t : Timer) (cyc period : Nat) : Timer :=
  if t.value ≠ 0 ∧ t.deadline ≤ cyc then ⟨t.value - 1, cyc + period⟩ else t

/-! ## Random bytes (R148) -/

/-- RND: the first listed byte, else the next free value (log 6). -/
def State.rndByte (s : State) : Byte := s.random.headD (Config.freeByte s.freeDraws)

/-- The draw behind `rndByte` is used up, so that the next CXNN draws afresh. -/
def State.drawRnd (s : State) : State :=
  { s with random := s.random.tail, freeDraws := if s.random.isEmpty then s.freeDraws + 1 else s.freeDraws }

/-! ## Taking an exception, and the return from one (R236, R241) -/

/-- `raise Fault(CODE)`: FAIL takes the code and nothing else changes; no vector, no handler, no saved state
(R236). That the cycle ends here is `finishCycle`'s part. -/
def State.raise (s : State) (code : FailCode) : State := { s with fail := code }

/-- Validation of a program's length, in the order of R262. -/
def validateLoad (cfg : Config) (len : Nat) : FailCode :=
  if len = 0 then .noProgram
  else if len < 2 then .programTooSmall
  else if cfg.memSize - progStart < len then .programTooLarge
  else .ok

/-- `reset(program)` (R260), the only way out of a fault (R241): every register, the stack, timers, counters,
key state and FAIL take the values of R41; MEM is the image of R51; a failed load blanks and invalidates the
display (R264), a successful one leaves FB at the launch framebuffer FB0 and FRAME_UPDATED at a free value
(R265, log 12). The configuration and the binding to the ports stay (R267). -/
def State.resetWith (s : State) (program : List Byte) : State :=
  let code := validateLoad s.cfg program.length
  let s' : State :=
    { s with
      wasReset := true, v := Vector.replicate 16 0, pc := BitVec.ofNat 16 progStart, i := 0,
      sp := s.cfg.stackDepth, stack := List.replicate s.cfg.stackDepth 0,
      delay := ⟨0, 0⟩, sound := ⟨0, 0⟩, cyc := 0, halt := none, kbd := 0, kbdPrev := 0,
      fail := code, mem := [] }
  if code = .ok then
    { s'.writeBytes progStart program with
      fb := s.cfg.fb0, frameUpdated := Config.freeFlag s.freeDraws, freeDraws := s.freeDraws + 1 }
  else (s'.setFb (blankPixels s.cfg.displayW s.cfg.displayH)).invalidate .whole

end Sys2Proof.Machine
end

