-- ==== Sys2Proof/Machine/Operands.lean ====
section
/-! DEFINITION. Operand forms: immediates, the data address, the glyph address, the shift source, digits,
keys and sprite bits. -/

namespace Sys2Proof.Machine

/-- `zext_16(NNN)` (R11, R73). -/
def zext16 (nnn : Addr) : Word := nnn.zeroExtend 16

/-- A byte as a 16-bit word (R11). -/
def byteToWord (b : Byte) : Word := b.zeroExtend 16

/-- The address of data access k: I + k, an unbounded natural (R55, R164). -/
def State.dataAddr (s : State) (k : Nat) : Nat := s.i.toNat + k

/-- `FONT_BASE + GLYPH_BYTES * (b & 0x0F)` with FONT_BASE = 0 and GLYPH_BYTES = 5 (R163). -/
def glyphAddr (b : Byte) : Word := 5 * byteToWord (b &&& 0x0F)

/-- The operand a shift reads: V[Y] under ORIGINAL, V[X] under MODERN (R143, R144). -/
def State.shiftSource (s : State) (x y : RegIx) : Byte :=
  match s.cfg.shiftProfile with
  | .original => s.reg y
  | .modern => s.reg x

/-- The hundreds, tens and ones of a byte (R165). -/
def decimalDigits (b : Byte) : List Byte :=
  [BitVec.ofNat 8 (b.toNat / 100), BitVec.ofNat 8 (b.toNat / 10 % 10), BitVec.ofNat 8 (b.toNat % 10)]

/-- V[0] ... V[x], the bytes FX55 stores (R166). -/
def State.regsThrough (s : State) (x : RegIx) : List Byte := s.v.toList.take (x.val + 1)

/-- `for i in 0 .. x: V[i] <- MemRead(a + i, 1)` (R167). -/
def State.loadRegsFrom (s : State) (a : Nat) (x : RegIx) : State :=
  { s with v := Vector.ofFn fun r => if r ≤ x then s.byte (a + r.val) else s.reg r }

/-- `pressed(k)`: bit k of this cycle's snapshot (R200). -/
def State.pressed (s : State) (k : Nat) : Bool := s.kbd.getLsbD k

/-- `keydown(v)` (R203); `none` is the refusal of KEY_INDEX_POLICY = REFUSE. -/
def State.keydown (s : State) (b : Byte) : Option Bool :=
  if b.toNat ≤ 0x0F then some (s.pressed b.toNat)
  else
    match s.cfg.keyIndexPolicy with
    | .notPressed => some false
    | .lowNibble => some (s.pressed (b &&& 0x0F).toNat)
    | .refuse => none

/-- `lowbit(m)`: the index of the least significant set bit of a nonzero mask (R12). -/
def lowbit (m : Word) : Nat := ((List.range 16).find? fun k => m.getLsbD k).getD 0

/-- `(row >> (7 - b)) & 1`: bit 7 is the leftmost pixel (R189). -/
def spriteBit (row : Byte) (b : Nat) : Bool := row.getLsbD (7 - b)

/-- COST(op) (R9, R95). -/
def costOf (cfg : Config) (op : Word) : Nat := (cfg.costRows.lookup op).getD cfg.costBase

end Sys2Proof.Machine
end

