-- ==== Sys2Proof/Machine/Flags.lean ====
section
/-! DEFINITION. The flag computations and the flag write to VF (42_alu.md R130 to R147, R185). -/

namespace Sys2Proof.Machine

/-- The flag register VF, V[0xF] (R21). -/
def vf : RegIx := 0xF

/-- A flag as the byte written to VF: 0x01 or 0x00 (R131). -/
def flagByte (b : Bool) : Byte := if b then 0x01 else 0x00

/-- `V[0xF] <- flag`, always the last register write of its instruction (R133). -/
def State.setFlag (s : State) (b : Bool) : State := s.setReg vf (flagByte b)

/-- The carry-flag interlock: the data write to V[X], then the flag write to VF (R131, R133). -/
def State.setRegFlag (s : State) (x : RegIx) (result : Byte) (flag : Bool) : State :=
  (s.setReg x result).setFlag flag

/-- Carry of an addition: the sum exceeds 0xFF (R140). -/
def addCarry (a b : Byte) : Bool := decide (0xFF < a.toNat + b.toNat)

/-- No borrow in a - b: a >= b (R141, R142). -/
def noBorrow (a b : Byte) : Bool := decide (b.toNat ≤ a.toNat)

/-- The bit a right shift by one moves out: bit 0 (R143). -/
def shrOut (b : Byte) : Bool := b.getLsbD 0

/-- The bit a left shift by one moves out: bit 7 (R144). -/
def shlOut (b : Byte) : Bool := b.getLsbD 7

end Sys2Proof.Machine
end

