-- ==== Sys2Proof/Machine/Alu.lean ====
section
/-! DEFINITION. Meanings of 42_alu.md: immediate loads and adds, family 8, RND. -/

namespace Sys2Proof.Machine

/-- 6XNN `V[X] <- NN` (R134) -/
def execLdImm (x : RegIx) (nn : Byte) (s : State) : Result := .next (s.setReg x nn)

/-- 7XNN `V[X] <- (V[X] + NN) mod 2^8`, no flag (R135) -/
def execAddImm (x : RegIx) (nn : Byte) (s : State) : Result := .next (s.setReg x (s.reg x + nn))

/-- 8XY0 `V[X] <- V[Y]` (R136) -/
def execLdReg (x y : RegIx) (s : State) : Result := .next (s.setReg x (s.reg y))

/-- 8XY1 `V[X] <- V[X] | V[Y]`, no flag (R137) -/
def execOrReg (x y : RegIx) (s : State) : Result := .next (s.setReg x (s.reg x ||| s.reg y))

/-- 8XY2 `V[X] <- V[X] & V[Y]`, no flag (R138) -/
def execAndReg (x y : RegIx) (s : State) : Result := .next (s.setReg x (s.reg x &&& s.reg y))

/-- 8XY3 `V[X] <- V[X] ^ V[Y]`, no flag (R139) -/
def execXorReg (x y : RegIx) (s : State) : Result := .next (s.setReg x (s.reg x ^^^ s.reg y))

/-- 8XY4: the sum modulo 2^8, VF its carry (R140) -/
def execAddReg (x y : RegIx) (s : State) : Result :=
  .next (s.setRegFlag x (s.reg x + s.reg y) (addCarry (s.reg x) (s.reg y)))

/-- 8XY5: V[X] - V[Y] modulo 2^8, VF the no-borrow flag (R141) -/
def execSub (x y : RegIx) (s : State) : Result :=
  .next (s.setRegFlag x (s.reg x - s.reg y) (noBorrow (s.reg x) (s.reg y)))

/-- 8XY7: V[Y] - V[X] modulo 2^8, VF the no-borrow flag (R142) -/
def execSubn (x y : RegIx) (s : State) : Result :=
  .next (s.setRegFlag x (s.reg y - s.reg x) (noBorrow (s.reg y) (s.reg x)))

/-- 8XY6: the source shifted right by one, VF the bit shifted out (R143) -/
def execShr (x y : RegIx) (s : State) : Result :=
  .next (s.setRegFlag x (s.shiftSource x y >>> 1) (shrOut (s.shiftSource x y)))

/-- 8XYE: the source shifted left by one, VF the bit shifted out (R144) -/
def execShl (x y : RegIx) (s : State) : Result :=
  .next (s.setRegFlag x (s.shiftSource x y <<< 1) (shlOut (s.shiftSource x y)))

/-- CXNN `V[X] <- RND & NN`, RND drawn afresh (R148) -/
def execRnd (x : RegIx) (nn : Byte) (s : State) : Result :=
  .next (s.drawRnd.setReg x (s.rndByte &&& nn))

end Sys2Proof.Machine
end

