-- ==== Sys2Proof/Machine/Control.lean ====
section
/-! DEFINITION. Meanings of 41_control.md. PC already holds P + 2 (R24). -/

namespace Sys2Proof.Machine

/-- 0NNN: UNEXPECTED_OPCODE under STRICT_SYS, else no operation (R111) -/
def execSys (_nnn : Addr) (s : State) : Result :=
  if s.cfg.strictSys then .next (s.raise .unexpectedOpcode) else .next s

/-- 00EE: pop the stack into PC, or STACK_UNDERFLOW when it is empty (R112) -/
def execRet (s : State) : Result :=
  if s.sp = s.cfg.stackDepth then .next (s.raise .stackUnderflow)
  else .next ((s.setPc (s.stackAt s.sp)).pop)

/-- 2NNN: push the return address and jump, or STACK_OVERFLOW when the stack is full (R113) -/
def execCall (nnn : Addr) (s : State) : Result :=
  if s.sp = 0 then .next (s.raise .stackOverflow) else .next ((s.push s.pc).setPc (zext16 nnn))

/-- 1NNN `PC <- zext_16(NNN)` (R114) -/
def execJp (nnn : Addr) (s : State) : Result := .next (s.setPc (zext16 nnn))

/-- BNNN `PC <- zext_16(NNN) + V[0]` (R119) -/
def execJpV0 (nnn : Addr) (s : State) : Result :=
  .next (s.setPc (zext16 nnn + byteToWord (s.reg 0)))

/-- 3XNN: skip if V[X] = NN (R115) -/
def execSeImm (x : RegIx) (nn : Byte) (s : State) : Result := .next (s.skipIf (s.reg x == nn))

/-- 4XNN: skip if V[X] differs from NN (R116) -/
def execSneImm (x : RegIx) (nn : Byte) (s : State) : Result := .next (s.skipIf (s.reg x != nn))

/-- 5XY0: skip if V[X] = V[Y] (R117) -/
def execSeReg (x y : RegIx) (s : State) : Result := .next (s.skipIf (s.reg x == s.reg y))

/-- 9XY0: skip if V[X] differs from V[Y] (R118) -/
def execSneReg (x y : RegIx) (s : State) : Result := .next (s.skipIf (s.reg x != s.reg y))

end Sys2Proof.Machine
end

