-- ==== Sys2Proof/Machine/Display.lean ====
section
/-! DEFINITION. Meanings of 44_display.md: CLS and the sprite compositor with its collision detector. -/

namespace Sys2Proof.Machine

/-- 00E0: every pixel off, the whole framebuffer invalidated (R181) -/
def execCls (s : State) : Result :=
  .next ((s.setFb (blankPixels s.cfg.displayW s.cfg.displayH)).invalidate .whole)

/-- The compositor's working data: the framebuffer and the collision found so far (R185). -/
structure Canvas where
  fb : Framebuffer
  collision : Bool
  deriving DecidableEq, Repr

/-- One sprite pixel at column x of row y: a column off the screen is clipped; a set bit inverts the pixel and
collides if it was on (R183, R185). -/
def Canvas.plot (c : Canvas) (w x y : Nat) (bit : Bool) : Canvas :=
  if x < w ∧ bit then ⟨c.fb.flip x y, c.collision || c.fb.pixel x y⟩ else c

/-- One sprite row at row y, leftmost pixel at column x0 (R185, R189). -/
def Canvas.plotRow (c : Canvas) (w x0 y : Nat) (row : Byte) : Canvas :=
  (List.range 8).foldl (fun c b => c.plot w (x0 + b) y (spriteBit row b)) c

/-- The sprite's rows from row y down; a row off the screen is clipped (R183, R185). -/
def Canvas.plotRows (c : Canvas) (w h x0 y : Nat) : List Byte → Canvas
  | [] => c
  | row :: rows =>
    (if y < h then c.plotRow w x0 y row else c).plotRows w h x0 (y + 1) rows

/-- The sprite's origin column, V[X] mod DISPLAY_W (R182). -/
def State.originX (s : State) (x : RegIx) : Nat := (s.reg x).toNat % s.cfg.displayW

/-- The sprite's origin row, V[Y] mod DISPLAY_H (R182). -/
def State.originY (s : State) (y : RegIx) : Nat := (s.reg y).toNat % s.cfg.displayH

/-- The rectangle a draw touches: the on-screen part of the 8 by n box (R187). -/
def touchedRect (cfg : Config) (x0 y0 n : Nat) : Invalidation :=
  .rect x0 y0 (min 8 (cfg.displayW - x0)) (min n (cfg.displayH - y0))

/-- The framebuffer and collision after compositing the n sprite bytes at I (R184, R185). -/
def State.composite (s : State) (x y : RegIx) (n : Nat) : Canvas :=
  (Canvas.mk s.fb false).plotRows s.cfg.displayW s.cfg.displayH (s.originX x) (s.originY y)
    (s.readBytes (s.dataAddr 0) n)

/-- DXYN (R185): no rows draw nothing and clear VF (R186); a sprite out of memory's range faults before any
effect (R184); else the pixels, then VF, then the invalidation. -/
def execDrw (x y : RegIx) (n : Count) (s : State) : Result :=
  if n.val = 0 then .next (s.setFlag false)
  else if s.inRange (s.dataAddr 0) n.val then
    .next (((s.setFb (s.composite x y n.val).fb).setFlag (s.composite x y n.val).collision).invalidate
      (touchedRect s.cfg (s.originX x) (s.originY y) n.val))
  else .next (s.raise .indexOutOfBounds)

end Sys2Proof.Machine
end

