-- ==== Sys2Proof/Machine/IndexMemory.lean ====
section
/-! DEFINITION. Meanings of 43_index_memory.md: the index-register unit, stores and loads. -/

namespace Sys2Proof.Machine

/-- ANNN `I <- zext_16(NNN)` (R161) -/
def execLdI (nnn : Addr) (s : State) : Result := .next (s.setI (zext16 nnn))

/-- FX1E `I <- (I + V[X]) mod 2^16`, no flag (R162) -/
def execAddI (x : RegIx) (s : State) : Result := .next (s.setI (s.i + byteToWord (s.reg x)))

/-- FX29 `I <- 5 * (V[X] & 0x0F)` (R163) -/
def execLdF (x : RegIx) (s : State) : Result := .next (s.setI (glyphAddr (s.reg x)))

/-- FX33: the three decimal digits of V[X] at I, I + 1, I + 2; I unchanged (R165) -/
def execLdB (x : RegIx) (s : State) : Result :=
  if s.inRange (s.dataAddr 0) 3 then .next (s.writeBytes (s.dataAddr 0) (decimalDigits (s.reg x)))
  else .next (s.raise .indexOutOfBounds)

/-- The post-increment of a block transfer: `I <- (I + X + 1) mod 2^16` (R160, R166, R167). -/
def State.advanceI (s : State) (x : RegIx) : State := s.setI (s.i + BitVec.ofNat 16 (x.val + 1))

/-- FX55: V[0] ... V[X] stored from I on, then I advances (R166) -/
def execStoreRegs (x : RegIx) (s : State) : Result :=
  if s.inRange (s.dataAddr 0) (x.val + 1) then
    .next ((s.writeBytes (s.dataAddr 0) (s.regsThrough x)).advanceI x)
  else .next (s.raise .indexOutOfBounds)

/-- FX65: V[0] ... V[X] loaded from I on, then I advances (R167) -/
def execLoadRegs (x : RegIx) (s : State) : Result :=
  if s.inRange (s.dataAddr 0) (x.val + 1) then .next ((s.loadRegsFrom (s.dataAddr 0) x).advanceI x)
  else .next (s.raise .indexOutOfBounds)

end Sys2Proof.Machine
end

