-- ==== Sys2Proof/Machine/TimersKeys.lean ====
section
/-! DEFINITION. Meanings of 45_timers_keys.md: key skips, timer instructions, the key-wait. -/

namespace Sys2Proof.Machine

/-- EX9E: skip if the key V[X] is down; a refusal where R203 says so (R201) -/
def execSkp (x : RegIx) (s : State) : Result :=
  match s.keydown (s.reg x) with
  | some down => .next (s.skipIf down)
  | none => .refused (.keyIndex (s.reg x))

/-- EXA1: skip if the key V[X] is up; a refusal where R203 says so (R202) -/
def execSknp (x : RegIx) (s : State) : Result :=
  match s.keydown (s.reg x) with
  | some down => .next (s.skipIf (!down))
  | none => .refused (.keyIndex (s.reg x))

/-- FX07 `V[X] <- DT` (R204) -/
def execLdVxDt (x : RegIx) (s : State) : Result := .next (s.setReg x s.delay.value)

/-- FX15 `timer_write(DT, DT_DL, V[X])` (R205, R208) -/
def execLdDtVx (x : RegIx) (s : State) : Result := .next (s.setDelay (s.timerWrite (s.reg x)))

/-- The sound timer's coercion of exactly 1 to 0 (R206). -/
def soundValue (b : Byte) : Byte := if b = 1 then 0 else b

/-- FX18 `timer_write(ST, ST_DL, v)` with 1 coerced to 0 (R206, R208) -/
def execLdStVx (x : RegIx) (s : State) : Result :=
  .next (s.setSound (s.timerWrite (soundValue (s.reg x))))

/-- FX0A `HALT <- X`: enter AWAITING_KEY (R207) -/
def execLdVxK (x : RegIx) (s : State) : Result := .next (s.setHalt (some x))

end Sys2Proof.Machine
end

