-- ==== Sys2Proof/Machine/Cycle.lean ====
section
/-! DEFINITION. One `doCycle()` (40_cycle.md R90): the gate, the keyboard sample, fetch and execute or the
key-wait, and the end-of-cycle bookkeeping. -/

namespace Sys2Proof.Machine

/-! ## Keyboard sample (R92) -/

/-- The mask `getState()` answers in this cycle. -/
def KeypadPort.sample (k : KeypadPort) : Word := k.upcoming.headD k.level

/-- The port after this cycle's sample: it goes on answering the sampled mask until another is listed (log 7). -/
def KeypadPort.advance (k : KeypadPort) : KeypadPort := ⟨k.sample, k.upcoming.tail⟩

/-- `KBD <- KBD_IN` -/
def State.sampleKeys (s : State) : State :=
  { s with kbd := s.keypad.sample, keypad := s.keypad.advance }

/-! ## Fetch (R93) -/

/-- Both bytes of the opcode at PC exist: PC + 1 < MEM_SIZE. -/
def State.fetchable (s : State) : Bool := s.inRange s.pc.toNat 2

/-- The big-endian opcode at PC (R57). -/
def State.fetchWord (s : State) : Word := wordOfBytes (s.byte s.pc.toNat) (s.byte (s.pc.toNat + 1))

/-- `PC <- (PC + 2) mod 2^16` -/
def State.afterFetch (s : State) : State := s.setPc (s.pc + 2)

/-! ## The end of a cycle (R96, R97) -/

/-- The bookkeeping of a cycle that raised no fault: KBD_PREV, CYC, the delay timer, the sound timer, and the
cost returned. -/
def State.endCycle (s : State) (cost : Nat) : State :=
  { s with
    kbdPrev := s.kbd
    cyc := s.cyc + cost
    delay := s.delay.refresh (s.cyc + cost) s.cfg.timerPeriod
    sound := s.sound.refresh (s.cyc + cost) s.cfg.timerPeriod
    lastCost := cost }

/-- A cycle that raised a fault does no bookkeeping; what it returns is unspecified, a free value (R97, log 9). -/
def State.endFaulted (s : State) : State :=
  { s with lastCost := Config.freeCost s.freeDraws, freeDraws := s.freeDraws + 1 }

/-- The cycle's end after execute: FAIL tells whether it raised a fault. -/
def State.finish (s : State) (cost : Nat) : State :=
  if s.fail = .ok then s.endCycle cost else s.endFaulted

/-- The cycle's end, whatever execute answered. -/
def finishCycle (cost : Nat) : Result → Result
  | .next s => .next (s.finish cost)
  | .fault r => .fault r
  | .refused r => .refused r

/-! ## The two branches -/

/-- `execute(decode(op))`: a word that spells no instruction raises UNEXPECTED_OPCODE (R77, R94). -/
def executeWord (op : Word) (s : State) : Result :=
  match decode op with
  | .ok i => exec i s
  | .error _ => .next (s.raise .unexpectedOpcode)

/-- RUNNING: fetch, execute, and the cycle's end. -/
def runCycle (s : State) : Result :=
  if s.fetchable then
    finishCycle (costOf s.cfg s.fetchWord) (executeWord s.fetchWord s.afterFetch)
  else .next ((s.raise .indexOutOfBounds).endFaulted)

/-- `keywait()` with HALT = r: the release on the first cycle with no key down after one with a key down (R222). -/
def State.keywait (s : State) (r : RegIx) : State :=
  if s.kbdPrev ≠ 0 ∧ s.kbd = 0 then (s.setReg r (BitVec.ofNat 8 (lowbit s.kbdPrev))).setHalt none else s

/-- One cycle of a core that is ok: the sample, then AWAITING_KEY or RUNNING. -/
def okCycle (s : State) : Result :=
  match s.halt with
  | some r => .next ((s.sampleKeys.keywait r).endCycle s.cfg.keywaitCost)
  | none => runCycle s.sampleKeys

/-- `doCycle()` with its gate: before the first reset and while FAIL is not OK there is no step (R42, R91). -/
def doCycle (s : State) : Result :=
  if s.wasReset then if s.fail = .ok then okCycle s else .fault (.notOk s.fail)
  else .fault .notReset

/-! ## Placing an instruction -/

/-- The state with the two bytes of an opcode at PC and the core about to fetch them: ok, RUNNING, and with PC
at PROG_START if it pointed outside memory. -/
def State.placeWord (s : State) (op : Word) : State :=
  let s : State := { s with wasReset := true, fail := .ok, halt := none }
  let s := if s.fetchable then s else s.setPc (BitVec.ofNat 16 progStart)
  s.writeBytes s.pc.toNat [(bytesOfWord op).1, (bytesOfWord op).2]

end Sys2Proof.Machine
end

