-- ==== Sys2Proof/Machine/HostInterface.lean ====
section
/-! DEFINITION. The host's transactions and queries (00_scope.md R14): the machine seen from outside. -/

namespace Sys2Proof.Machine

/-- `isOk()` (R36) -/
def State.isOk (s : State) : Bool := s.fail == .ok

/-- `isPlayingSound()` (R216) -/
def State.isPlayingSound (s : State) : Bool := s.sound.value != 0

/-- `isInvalid()`, the source's `isFrameUpdated()` (R39) -/
def State.isInvalid (s : State) : Bool := s.frameUpdated

/-- The Display Port's `validate()`: FRAME_UPDATED becomes false, nothing else changes (R46). -/
def State.validateDisplay (s : State) : State := { s with frameUpdated := false }

/-- A transaction the host may ask for (R14, R46); the queries above change nothing. -/
inductive HostCall where
  | reset (program : List Byte)
  | doCycle
  | validate
  deriving DecidableEq, Repr

/-- One transaction. -/
def transact (call : HostCall) (s : State) : Result :=
  match call with
  | .reset program => .next (s.resetWith program)
  | .doCycle => doCycle s
  | .validate => .next s.validateDisplay

end Sys2Proof.Machine
end

