-- ==== Sys2Proof/Machine/Step.lean ====
section
/-! DEFINITION. The machine's step is one `doCycle()` (00_scope.md R6), and where an opcode is placed for it. -/

namespace Sys2Proof.Machine

/-- One step: `doCycle()` with the keypad snapshot and random byte its state holds (R90). -/
def step (s : State) : Host.Outcome State Fault Refusal := doCycle s

/-- The state whose next step fetches and runs the opcode whose bits the opcode table numbers as w. -/
def State.withFetchWord (s : State) (nbits w : Nat) : State := s.placeWord (tableWord nbits w)

end Sys2Proof.Machine
end

