-- ==== Sys2Proof/Safety.lean ====
section
/-! DEFINITION. The terms claims are stated in: legal configurations, the invariant, the run states, the
values reset leaves, what an instruction may change, and how a word matches a row of the opcode map. -/

namespace Sys2Proof.Machine

/-! ## The invariant (R8, R37, R38, R43) -/

/-- The framebuffer has h rows of w pixels (R38). -/
abbrev Framebuffer.Shaped (w h : Nat) (fb : Framebuffer) : Prop :=
  fb.length = h ∧ ∀ row ∈ fb, row.length = w

/-- The parameters lie in the ranges of R8. -/
abbrev LegalConfig (c : Config) : Prop :=
  0x202 ≤ c.memSize ∧ c.memSize ≤ 0x10000 ∧ 1 ≤ c.stackDepth ∧ 1 ≤ c.displayW ∧ 1 ≤ c.displayH ∧
    c.font.length = 80 ∧ 1 ≤ c.timerPeriod ∧ Framebuffer.Shaped c.displayW c.displayH c.fb0

/-- What holds in every state a run reaches: the configuration is legal, SP lies in 0 ... STACK_DEPTH (R43), the
stack has STACK_DEPTH entries (R27), memory is in canonical form and lists only existing addresses (R37), the
framebuffer has the display's shape (R38). That registers and words keep their widths is in their types. -/
abbrev State.Inv (s : State) : Prop :=
  LegalConfig s.cfg ∧ s.sp ≤ s.cfg.stackDepth ∧ s.stack.length = s.cfg.stackDepth ∧
    Memory.wf s.cfg s.mem ∧ (∀ c ∈ s.mem, c.1 < s.cfg.memSize) ∧
    Framebuffer.Shaped s.cfg.displayW s.cfg.displayH s.fb

/-! ## Run states (R91, R98) -/

/-- The core has been reset and FAIL is OK: the next `doCycle()` has a step. -/
abbrev State.Ok (s : State) : Prop := s.wasReset = true ∧ s.fail = .ok

/-- RUNNING (R98). -/
abbrev State.Running (s : State) : Prop := s.Ok ∧ s.halt = none

/-- AWAITING_KEY with HALT = r (R98). -/
abbrev State.Awaiting (s : State) (r : RegIx) : Prop := s.Ok ∧ s.halt = some r

/-- A running core whose next instruction is SKP or SKNP on a register x that names no key, under
KEY_INDEX_POLICY = REFUSE: the one cycle a model refuses (R203). -/
def State.RefusedKeySkip (s : State) (x : RegIx) : Prop :=
  s.cfg.keyIndexPolicy = .refuse ∧ s.halt = none ∧ s.pc.toNat + 1 < s.cfg.memSize ∧ 0x10 ≤ (s.reg x).toNat ∧
    (decode (s.byte s.pc.toNat ++ s.byte (s.pc.toNat + 1)) = .ok (.skp x) ∨
      decode (s.byte s.pc.toNat ++ s.byte (s.pc.toNat + 1)) = .ok (.sknp x))

/-! ## Reset (R41, R267) -/

/-- The values every `reset(program)` leaves, whether the load succeeded or not; the configuration c stays. -/
structure ResetValues (c : Config) (t : State) : Prop where
  cfg : t.cfg = c
  wasReset : t.wasReset = true
  regs : ∀ r, t.reg r = 0
  index : t.i = 0
  pc : t.pc = 0x200
  stack : t.sp = c.stackDepth ∧ t.stack = List.replicate c.stackDepth 0
  timers : t.delay = ⟨0, 0⟩ ∧ t.sound = ⟨0, 0⟩
  cyc : t.cyc = 0
  halt : t.halt = none
  keys : t.kbd = 0 ∧ t.kbdPrev = 0

/-! ## What an instruction may change -/

/-- The parts of the state an instruction may change; each is unchanged unless named. -/
structure Footprint where
  regs : RegIx → Prop := fun _ => False
  bytes : Nat → Prop := fun _ => False
  pc : Prop := False
  index : Prop := False
  stack : Prop := False
  delay : Prop := False
  sound : Prop := False
  halt : Prop := False
  fail : Prop := False
  display : Prop := False
  draws : Prop := False

/-- From s to t nothing changed but what the footprint names. The configuration, CYC, KBD, KBD_PREV, the keypad
and the returned cost are never an instruction's to change. -/
structure Frame (f : Footprint) (s t : State) : Prop where
  regs : ∀ r, ¬ f.regs r → t.reg r = s.reg r
  bytes : ∀ a, ¬ f.bytes a → t.byte a = s.byte a
  pc : ¬ f.pc → t.pc = s.pc
  index : ¬ f.index → t.i = s.i
  stack : ¬ f.stack → t.sp = s.sp ∧ t.stack = s.stack
  delay : ¬ f.delay → t.delay = s.delay
  sound : ¬ f.sound → t.sound = s.sound
  halt : ¬ f.halt → t.halt = s.halt
  fail : ¬ f.fail → t.fail = s.fail
  display : ¬ f.display → t.fb = s.fb ∧ t.frameUpdated = s.frameUpdated ∧ t.invalidated = s.invalidated
  draws : ¬ f.draws → t.random = s.random ∧ t.freeDraws = s.freeDraws
  always : t.cfg = s.cfg ∧ t.wasReset = s.wasReset ∧ t.cyc = s.cyc ∧ t.kbd = s.kbd ∧
    t.kbdPrev = s.kbdPrev ∧ t.keypad = s.keypad ∧ t.lastCost = s.lastCost

/-- The n bytes from a on. -/
abbrev Span (a n : Nat) (k : Nat) : Prop := a ≤ k ∧ k < a + n

/-! ## The opcode map (R75) -/

/-- Every word with `op & mask = pattern` decodes to the instruction the row gives it. -/
def DecodesAs (mask pattern : Word) (row : Word → Instr) : Prop :=
  ∀ op : Word, op &&& mask = pattern → decode op = .ok (row op)

/-! ## The sprite as a picture (R182, R183, R185, R189) -/

/-- The sprite drawn by DXYN covers pixel (px, py): the pixel is on the screen and the sprite's bit there is set.
Row r comes from the byte at I + r and lies at the wrapped origin's row plus r; bit 7 - b is column b. -/
def State.SpriteCovers (s : State) (x y : RegIx) (n : Nat) (px py : Nat) : Prop :=
  px < s.cfg.displayW ∧ py < s.cfg.displayH ∧
    ∃ r b : Nat, r < n ∧ b < 8 ∧ px = (s.reg x).toNat % s.cfg.displayW + b ∧
      py = (s.reg y).toNat % s.cfg.displayH + r ∧ (s.byte (s.i.toNat + r)).getLsbD (7 - b) = true

/-! ## The collision detector as a bitmask (R188) -/

/-- m: a sprite byte with its clipped bits cleared, x0 being the origin column of a display w wide. -/
def clippedByte (w x0 : Nat) (row : Byte) : Byte :=
  BitVec.ofFnLE fun k : Fin 8 => row.getLsbD k && decide (x0 + (7 - k.val) < w)

/-- f: the eight framebuffer pixels under a sprite row, pixel x0 + b at bit 7 - b, 0 where clipped. -/
def pixelsUnder (fb : Framebuffer) (w x0 y : Nat) : Byte :=
  BitVec.ofFnLE fun k : Fin 8 => fb.pixel (x0 + (7 - k.val)) y && decide (x0 + (7 - k.val) < w)

end Sys2Proof.Machine
end

