-- ==== Sys2Proof/Certificates/Slice0/Obligations.lean ====
section
/-! DEFINITION. The statements for the provers. `Frame`, `DecodesAs`, `State.Inv` and the run states are in
Sys2Proof/Safety.lean. A docstring names the rule of spec/ a statement formalises; where a clause rests on a
decision of the spec (92_eei_decisions.md) or on the model's own choice (a log entry), it says so. -/

open Sys2Proof Sys2Proof.Machine

/-! ## Encoding -/

/-- Decoding the word of a well-formed instruction gives the instruction back, with every operand at every
value its field admits (30_encoding.md, the decode tree and the opcode map). -/
def Obligations.DecodeOfEncode : Prop :=
  ∀ i : Instr, i.wf = true → decode (encode i) = .ok i

/-- Every word that decodes is the word of the instruction it decodes to: no bit of an encoding is dropped, and
the decoder only yields well-formed instructions (30_encoding.md, the decode tree and the opcode map). -/
def Obligations.EncodeOfDecode : Prop :=
  ∀ (op : Word) (i : Instr), decode op = .ok i → i.wf = true ∧ encode i = op

/-- Words written out from the encodings of 30_encoding.md, at least one for each of the sixteen families. -/
def Obligations.SpecWordsDecode : Prop :=
  decodeTableWord 16 0x00E0 = some .cls ∧ decodeTableWord 16 0x00EE = some .ret ∧
  decodeTableWord 16 0x0123 = some (.sys 0x123) ∧ decodeTableWord 16 0x1200 = some (.jp 0x200) ∧
  decodeTableWord 16 0x2208 = some (.call 0x208) ∧ decodeTableWord 16 0x35BE = some (.seImm 5 0xBE) ∧
  decodeTableWord 16 0x41FE = some (.sneImm 1 0xFE) ∧ decodeTableWord 16 0x5120 = some (.seReg 1 2) ∧
  decodeTableWord 16 0x6DFE = some (.ldImm 0xD 0xFE) ∧ decodeTableWord 16 0x71FF = some (.addImm 1 0xFF) ∧
  decodeTableWord 16 0x8D34 = some (.addReg 0xD 3) ∧ decodeTableWord 16 0x9120 = some (.sneReg 1 2) ∧
  decodeTableWord 16 0xAFFE = some (.ldI 0xFFE) ∧ decodeTableWord 16 0xBFFF = some (.jpV0 0xFFF) ∧
  decodeTableWord 16 0xC30F = some (.rnd 3 0x0F) ∧ decodeTableWord 16 0xD125 = some (.drw 1 2 5) ∧
  decodeTableWord 16 0xE19E = some (.skp 1) ∧ decodeTableWord 16 0xF265 = some (.loadRegs 2)

/-- The words that spell no instruction are exactly those of the table of 30_encoding.md section 3 (family 0 is
never among them here: its strict form is SYS's own fault). Families 5 and 9 follow decision D10. -/
def Obligations.UnexpectedWordsAreTheTable : Prop :=
  ∀ op : Word, decode op = .error (.unexpected op) ↔
    ((op.toNat / 0x1000 = 5 ∨ op.toNat / 0x1000 = 9) ∧ op.toNat % 0x10 ≠ 0) ∨
    (op.toNat / 0x1000 = 8 ∧ (8 ≤ op.toNat % 0x10 ∧ op.toNat % 0x10 ≤ 0xD ∨ op.toNat % 0x10 = 0xF)) ∨
    (op.toNat / 0x1000 = 0xE ∧ op.toNat % 0x100 ≠ 0x9E ∧ op.toNat % 0x100 ≠ 0xA1) ∨
    (op.toNat / 0x1000 = 0xF ∧
      op.toNat % 0x100 ∉ [0x07, 0x0A, 0x15, 0x18, 0x1E, 0x29, 0x33, 0x55, 0x65])

/-! ## The cycle -/

/-- A running core whose two bytes at PC decode to i steps by running i on the state with this cycle's keypad
snapshot taken and PC past the instruction, and then ending the cycle (40_cycle.md sections 1 to 5; the order
around `exec` is decision D27, the keypad's data log 7). -/
def Obligations.StepRunsTheDecodedInstruction : Prop :=
  ∀ (s : State) (i : Instr), s.Running → s.pc.toNat + 1 < s.cfg.memSize →
    decode (s.byte s.pc.toNat ++ s.byte (s.pc.toNat + 1)) = .ok i →
    step s = finishCycle (costOf s.cfg (s.byte s.pc.toNat ++ s.byte (s.pc.toNat + 1)))
      (exec i { s with kbd := s.keypad.upcoming.headD s.keypad.level
                       keypad := ⟨s.keypad.upcoming.headD s.keypad.level, s.keypad.upcoming.tail⟩
                       pc := s.pc + 2 })

/-- A cycle that raised no fault ends with KBD_PREV the cycle's KBD, CYC grown by the cost, the timers refreshed
against the new CYC, and the cost returned; nothing else changes (40_cycle.md section 5, decision D27). -/
def Obligations.CompletedCycleBookkeeping : Prop :=
  ∀ (s : State) (cost : Nat), s.fail = .ok → ∃ t, finishCycle cost (.next s) = .next t ∧
    t.kbdPrev = s.kbd ∧ t.cyc = s.cyc + cost ∧ t.lastCost = cost ∧
    t.delay = s.delay.refresh t.cyc s.cfg.timerPeriod ∧ t.sound = s.sound.refresh t.cyc s.cfg.timerPeriod ∧
    { t with kbdPrev := s.kbdPrev, cyc := s.cyc, lastCost := s.lastCost, delay := s.delay, sound := s.sound } = s

/-- A cycle that raised a fault does no bookkeeping: only the returned value, a free value, is new
(40_cycle.md section 5, decision D8; log 9). -/
def Obligations.FaultedCycleDoesNoBookkeeping : Prop :=
  ∀ (s : State) (cost : Nat), s.fail ≠ .ok → ∃ t, finishCycle cost (.next s) = .next t ∧
    { t with lastCost := s.lastCost, freeDraws := s.freeDraws } = s

/-- A timer falls by one exactly when it runs and CYC has reached its deadline, and then gets a new deadline one
TIMER_PERIOD on; otherwise it stays (45_timers_keys.md section 3, decision D26). -/
def Obligations.TimerRefreshIsSingleDecrement : Prop :=
  ∀ (t : Timer) (cyc period : Nat),
    (t.value ≠ 0 → t.deadline ≤ cyc →
      (t.refresh cyc period).value.toNat = t.value.toNat - 1 ∧
      (t.refresh cyc period).deadline = cyc + period) ∧
    (t.value = 0 ∨ cyc < t.deadline → t.refresh cyc period = t)

/-- A word that spells no instruction: the step advances PC, records UNEXPECTED_OPCODE and does nothing else but
take the keypad snapshot and return an unspecified value (30_encoding.md section 3, 60_exceptions.md section 2;
decision D8, log 9). -/
def Obligations.UnexpectedWordFaults : Prop :=
  ∀ (s : State) (e : DecodeError), s.Running → s.pc.toNat + 1 < s.cfg.memSize →
    decode (s.byte s.pc.toNat ++ s.byte (s.pc.toNat + 1)) = .error e →
    ∃ t, step s = .next t ∧ t.fail = .unexpectedOpcode ∧ t.pc = s.pc + 2 ∧ t.kbd = s.keypad.sample ∧
      { t with fail := s.fail, pc := s.pc, kbd := s.kbd, keypad := s.keypad,
               lastCost := s.lastCost, freeDraws := s.freeDraws } = s

/-- A fetch whose second byte does not exist records INDEX_OUT_OF_BOUNDS, with PC unchanged and no bookkeeping
(40_cycle.md section 2, decisions D6 and D7). -/
def Obligations.FetchOutOfRangeFaults : Prop :=
  ∀ s : State, s.Running → s.cfg.memSize ≤ s.pc.toNat + 1 →
    ∃ t, step s = .next t ∧ t.fail = .indexOutOfBounds ∧ t.kbd = s.keypad.sample ∧
      { t with fail := s.fail, kbd := s.kbd, keypad := s.keypad,
               lastCost := s.lastCost, freeDraws := s.freeDraws } = s

/-- While FAIL is not OK, and before the first reset, the core has no step (40_cycle.md section 1,
decision D38). -/
def Obligations.NoStepUnlessOk : Prop :=
  ∀ s : State, (∃ t, step s = .next t) → s.wasReset = true ∧ s.fail = .ok

/-- Every `doCycle()` of a core that is ok answers a next state, under every configuration, unless it is a refused
key skip, and a refused key skip is refused by name: KEY_INDEX_POLICY is REFUSE and a running core decodes SKP or
SKNP on a register holding 0x10 or more (40_cycle.md section 6, promptness; 45_timers_keys.md section 1,
decision D22; log 19). -/
def Obligations.EveryOkCycleCompletes : Prop :=
  ∀ s : State, s.Ok →
    (¬ (∃ x, s.RefusedKeySkip x) → ∃ t, step s = .next t) ∧
    (∀ x, s.RefusedKeySkip x → step s = .refused (.keyIndex (s.reg x)))

/-! ## Key-wait -/

/-- A cycle in AWAITING_KEY takes the keypad snapshot, fetches and executes nothing and charges KEYWAIT_COST; KBD
and KBD_PREV end as this cycle's snapshot; beside that, the timers and the release nothing changes
(45_timers_keys.md section 4 and 40_cycle.md sections 1 and 5; the sampling by decision D45, KBD_PREV and the
bookkeeping by decisions D23 and D27, the cost by decision D25; the keypad's data log 7). -/
def Obligations.KeywaitCycleFetchesNothing : Prop :=
  ∀ (s : State) (r : RegIx), s.Awaiting r → ∃ t, step s = .next t ∧
    t.kbd = s.keypad.sample ∧ t.kbdPrev = s.keypad.sample ∧
    t.keypad = ⟨s.keypad.upcoming.headD s.keypad.level, s.keypad.upcoming.tail⟩ ∧
    t.cyc = s.cyc + s.cfg.keywaitCost ∧ t.lastCost = s.cfg.keywaitCost ∧ t.wasReset = s.wasReset ∧
    t.pc = s.pc ∧ t.i = s.i ∧ t.sp = s.sp ∧ t.stack = s.stack ∧ t.fail = s.fail ∧ t.cfg = s.cfg ∧
    t.fb = s.fb ∧ t.frameUpdated = s.frameUpdated ∧ t.invalidated = s.invalidated ∧
    t.random = s.random ∧ t.freeDraws = s.freeDraws ∧ (∀ a, t.byte a = s.byte a) ∧
    (∀ q, q ≠ r → t.reg q = s.reg q) ∧
    (t.halt = some r ∧ t.reg r = s.reg r ∨ t.halt = none ∧ s.kbdPrev ≠ 0 ∧ s.keypad.sample = 0)

/-- The release: on the first cycle with no key down after a cycle with a key down, the halted register takes the
index of the lowest key that was down and HALT clears; on any other cycle neither changes (45_timers_keys.md
section 4, decision D23). -/
def Obligations.KeywaitReleaseWritesTheKey : Prop :=
  ∀ (s t : State) (r : RegIx), s.Awaiting r → step s = .next t →
    (s.kbdPrev ≠ 0 → s.keypad.sample = 0 →
      t.halt = none ∧ s.kbdPrev.getLsbD (t.reg r).toNat = true ∧
      ∀ k, k < (t.reg r).toNat → s.kbdPrev.getLsbD k = false) ∧
    (s.kbdPrev = 0 ∨ s.keypad.sample ≠ 0 → t.halt = some r ∧ t.reg r = s.reg r)

/-- In AWAITING_KEY both timers are refreshed, as in any other cycle (45_timers_keys.md section 3), against the cycle
count after the cost (40_cycle.md section 5, decision D27). -/
def Obligations.TimersRunDuringKeywait : Prop :=
  ∀ (s : State) (r : RegIx), s.Awaiting r → ∃ t, step s = .next t ∧
    t.delay = s.delay.refresh (s.cyc + s.cfg.keywaitCost) s.cfg.timerPeriod ∧
    t.sound = s.sound.refresh (s.cyc + s.cfg.keywaitCost) s.cfg.timerPeriod

/-- R98 and R220: RUNNING goes to AWAITING_KEY only by FX0A, and AWAITING_KEY goes back only by the release. -/
def Obligations.RunStateChangesOnlyByKeywait : Prop :=
  ∀ s t : State, step s = .next t →
    (∀ r, s.halt = none → t.halt = some r →
      decode (s.byte s.pc.toNat ++ s.byte (s.pc.toNat + 1)) = .ok (.ldVxK r)) ∧
    (∀ r, s.halt = some r → t.halt = none → s.kbdPrev ≠ 0 ∧ t.kbd = 0) ∧
    (∀ r q, s.halt = some r → t.halt = some q → q = r)

/-! ## Invariants -/

/-- Every step keeps the invariant: SP in range, the stack's depth, memory canonical and inside MEM_SIZE, the
framebuffer's shape, a legal configuration. -/
def Obligations.StepKeepsInvariant : Prop :=
  ∀ s t : State, s.Inv → step s = .next t → t.Inv

/-- The reset state meets the invariant. -/
def Obligations.ResetStateMeetsInvariant : Prop := State.reset.Inv

/-- `reset(program)` establishes the invariant from any state with a legal configuration, for any program, the
host's other transactions keep it, and `validate()` sets FRAME_UPDATED to false and changes nothing else
(70_reset_and_hazards.md section 1, 10_state.md sections 11 and 13; log 17). -/
def Obligations.TransactionsEstablishInvariant : Prop :=
  (∀ (s : State) (p : List Byte), LegalConfig s.cfg → (s.resetWith p).Inv) ∧
  (∀ (call : HostCall) (s t : State), s.Inv → transact call s = .next t → t.Inv) ∧
  (∀ s : State, transact .validate s = .next { s with frameUpdated := false })

/-! ## Faults as a whole -/

/-- Faults are precise: an instruction that faults changes FAIL and nothing else (60_exceptions.md section 2,
decisions D7 and D8). -/
def Obligations.InstructionFaultsArePrecise : Prop :=
  ∀ (i : Instr) (s t : State), s.fail = .ok → exec i s = .next t → t.fail ≠ .ok →
    t = { s with fail := t.fail }

/-- Which instruction faults, with which code, under which condition: the run-time rows of the table of
60_exceptions.md section 1, and no other. -/
def Obligations.FaultsAreExactlyTheTable : Prop :=
  ∀ (i : Instr) (s t : State), s.fail = .ok → exec i s = .next t →
    (t.fail ≠ .ok ↔
      (∃ nnn, i = .sys nnn ∧ s.cfg.strictSys = true) ∨
      (i = .ret ∧ s.sp = s.cfg.stackDepth) ∨ (∃ nnn, i = .call nnn ∧ s.sp = 0) ∨
      (∃ x y n, i = .drw x y n ∧ 0 < n.val ∧ s.cfg.memSize ≤ s.i.toNat + n.val - 1) ∨
      (∃ x, i = .ldB x ∧ s.cfg.memSize ≤ s.i.toNat + 2) ∨
      (∃ x, (i = .storeRegs x ∨ i = .loadRegs x) ∧ s.cfg.memSize ≤ s.i.toNat + x.val)) ∧
    (t.fail = .unexpectedOpcode → ∃ nnn, i = .sys nnn) ∧ (t.fail = .stackUnderflow → i = .ret) ∧
    (t.fail = .stackOverflow → ∃ nnn, i = .call nnn) ∧
    (t.fail = .indexOutOfBounds →
      (∃ x y n, i = .drw x y n) ∨ ∃ x, i = .ldB x ∨ i = .storeRegs x ∨ i = .loadRegs x) ∧
    t.fail ≠ .noProgram ∧ t.fail ≠ .programTooSmall ∧ t.fail ≠ .programTooLarge

/-! ## Control transfer -/

/-- SYS, any word of family 0 other than 00E0 and 00EE, is a no-op when STRICT_SYS is false and the fault
UNEXPECTED_OPCODE when it is true (41_control.md section 2, decision D9). That the decoder gives SYS for these
words whatever STRICT_SYS is, the fault being SYS's own, is the model's (log 16). -/
def Obligations.SysIsNopOrFault : Prop :=
  (∀ op : Word, op &&& 0xF000#16 = 0x0000#16 → op ≠ 0x00E0#16 → op ≠ 0x00EE#16 →
    decode op = .ok (.sys (opNNN op))) ∧
  ∀ (nnn : Addr) (s : State),
    (s.cfg.strictSys = false → exec (.sys nnn) s = .next s) ∧
    (s.cfg.strictSys = true → exec (.sys nnn) s = .next { s with fail := .unexpectedOpcode })

/-- RET on a stack that is not empty pops its top into PC, and the popped slot keeps its value; on an empty stack
it faults with STACK_UNDERFLOW (41_control.md section 2, the slot by decision D41). -/
def Obligations.RetPopsOrUnderflows : Prop :=
  DecodesAs 0xFFFF 0x00EE (fun _ => .ret) ∧
  ∀ s : State,
    (s.sp < s.cfg.stackDepth → s.stack.length = s.cfg.stackDepth →
      ∃ t, exec .ret s = .next t ∧ s.stack[s.sp]? = some t.pc ∧ t.sp = s.sp + 1 ∧ t.stack = s.stack ∧
        Frame { pc := True, stack := True } s t) ∧
    (s.sp = s.cfg.stackDepth → exec .ret s = .next { s with fail := .stackUnderflow })

/-- CALL on a stack that is not full pushes PC, which holds the return address P + 2, and jumps; on a full stack
it faults with STACK_OVERFLOW, PC, SP and the stack as they were (41_control.md section 3, decision D41). -/
def Obligations.CallPushesOrOverflows : Prop :=
  DecodesAs 0xF000 0x2000 (fun op => .call (opNNN op)) ∧
  ∀ (nnn : Addr) (s : State),
    (0 < s.sp → s.sp ≤ s.stack.length →
      ∃ t, exec (.call nnn) s = .next t ∧ t.pc.toNat = nnn.toNat ∧ t.sp + 1 = s.sp ∧
        t.stack[t.sp]? = some s.pc ∧ (∀ k, k ≠ t.sp → t.stack[k]? = s.stack[k]?) ∧
        Frame { pc := True, stack := True } s t) ∧
    (s.sp = 0 → exec (.call nnn) s = .next { s with fail := .stackOverflow })

/-- R114: JP sets PC to NNN and nothing else. -/
def Obligations.JpSetsPc : Prop :=
  DecodesAs 0xF000 0x1000 (fun op => .jp (opNNN op)) ∧
  ∀ (nnn : Addr) (s : State), ∃ t, exec (.jp nnn) s = .next t ∧ t.pc.toNat = nnn.toNat ∧
    Frame { pc := True } s t

/-- R119: JP V0 sets PC to NNN + V[0], which never wraps, and nothing else. -/
def Obligations.JpV0AddsV0 : Prop :=
  DecodesAs 0xF000 0xB000 (fun op => .jpV0 (opNNN op)) ∧
  ∀ (nnn : Addr) (s : State), ∃ t, exec (.jpV0 nnn) s = .next t ∧
    t.pc.toNat = nnn.toNat + (s.reg 0).toNat ∧ Frame { pc := True } s t

/-- R115 and R116: the immediate skips add 2 to PC, modulo 2^16, exactly when V[X] equals NN, or differs. -/
def Obligations.ImmediateSkips : Prop :=
  DecodesAs 0xF000 0x3000 (fun op => .seImm (opX op) (opNN op)) ∧
  DecodesAs 0xF000 0x4000 (fun op => .sneImm (opX op) (opNN op)) ∧
  ∀ (x : RegIx) (nn : Byte) (s : State),
    (∃ t, exec (.seImm x nn) s = .next t ∧ Frame { pc := True } s t ∧
      t.pc.toNat = if s.reg x = nn then (s.pc.toNat + 2) % 2 ^ 16 else s.pc.toNat) ∧
    (∃ t, exec (.sneImm x nn) s = .next t ∧ Frame { pc := True } s t ∧
      t.pc.toNat = if s.reg x = nn then s.pc.toNat else (s.pc.toNat + 2) % 2 ^ 16)

/-- R117 and R118: the register skips add 2 to PC, modulo 2^16, exactly when V[X] equals V[Y], or differs. -/
def Obligations.RegisterSkips : Prop :=
  DecodesAs 0xF00F 0x5000 (fun op => .seReg (opX op) (opY op)) ∧
  DecodesAs 0xF00F 0x9000 (fun op => .sneReg (opX op) (opY op)) ∧
  ∀ (x y : RegIx) (s : State),
    (∃ t, exec (.seReg x y) s = .next t ∧ Frame { pc := True } s t ∧
      t.pc.toNat = if s.reg x = s.reg y then (s.pc.toNat + 2) % 2 ^ 16 else s.pc.toNat) ∧
    (∃ t, exec (.sneReg x y) s = .next t ∧ Frame { pc := True } s t ∧
      t.pc.toNat = if s.reg x = s.reg y then s.pc.toNat else (s.pc.toNat + 2) % 2 ^ 16)

/-! ## Register file and ALU -/

/-- R134: LD Vx, NN writes NN to V[X], VF included as data, and nothing else. -/
def Obligations.LdImmWritesNN : Prop :=
  DecodesAs 0xF000 0x6000 (fun op => .ldImm (opX op) (opNN op)) ∧
  ∀ (x : RegIx) (nn : Byte) (s : State), ∃ t, exec (.ldImm x nn) s = .next t ∧ t.reg x = nn ∧
    Frame { regs := (· = x) } s t

/-- R135: ADD Vx, NN adds modulo 2^8 and writes no flag, even on overflow. -/
def Obligations.AddImmWritesNoFlag : Prop :=
  DecodesAs 0xF000 0x7000 (fun op => .addImm (opX op) (opNN op)) ∧
  ∀ (x : RegIx) (nn : Byte) (s : State), ∃ t, exec (.addImm x nn) s = .next t ∧
    (t.reg x).toNat = ((s.reg x).toNat + nn.toNat) % 2 ^ 8 ∧ Frame { regs := (· = x) } s t

/-- R136: LD Vx, Vy copies V[Y] to V[X] and nothing else. -/
def Obligations.LdRegCopies : Prop :=
  DecodesAs 0xF00F 0x8000 (fun op => .ldReg (opX op) (opY op)) ∧
  ∀ (x y : RegIx) (s : State), ∃ t, exec (.ldReg x y) s = .next t ∧ t.reg x = s.reg y ∧
    Frame { regs := (· = x) } s t

/-- OR, AND and XOR combine the two registers bit by bit into V[X] and leave VF alone unless X is F
(42_alu.md section 3, the untouched VF by decision D12). -/
def Obligations.LogicWritesNoFlag : Prop :=
  DecodesAs 0xF00F 0x8001 (fun op => .orReg (opX op) (opY op)) ∧
  DecodesAs 0xF00F 0x8002 (fun op => .andReg (opX op) (opY op)) ∧
  DecodesAs 0xF00F 0x8003 (fun op => .xorReg (opX op) (opY op)) ∧
  ∀ (x y : RegIx) (s : State),
    (∃ t, exec (.orReg x y) s = .next t ∧ Frame { regs := (· = x) } s t ∧
      ∀ k, (t.reg x).getLsbD k = ((s.reg x).getLsbD k || (s.reg y).getLsbD k)) ∧
    (∃ t, exec (.andReg x y) s = .next t ∧ Frame { regs := (· = x) } s t ∧
      ∀ k, (t.reg x).getLsbD k = ((s.reg x).getLsbD k && (s.reg y).getLsbD k)) ∧
    (∃ t, exec (.xorReg x y) s = .next t ∧ Frame { regs := (· = x) } s t ∧
      ∀ k, (t.reg x).getLsbD k = ((s.reg x).getLsbD k ^^ (s.reg y).getLsbD k))

/-- R140: ADD Vx, Vy leaves the sum modulo 2^8 in V[X] and then the carry in VF; with X = F the carry stays. -/
def Obligations.AddRegSumAndCarry : Prop :=
  DecodesAs 0xF00F 0x8004 (fun op => .addReg (opX op) (opY op)) ∧
  ∀ (x y : RegIx) (s : State), ∃ t, exec (.addReg x y) s = .next t ∧
    (x ≠ 0xF → (t.reg x).toNat = ((s.reg x).toNat + (s.reg y).toNat) % 2 ^ 8) ∧
    t.reg 0xF = (if 0xFF < (s.reg x).toNat + (s.reg y).toNat then 0x01 else 0x00) ∧
    Frame { regs := fun r => r = x ∨ r = 0xF } s t

/-- SUB and SUBN leave the difference modulo 2^8 in V[X] and then in VF whether no borrow occurred; equal operands
do not borrow (42_alu.md section 3, equality by decision D13). -/
def Obligations.SubDifferenceAndNoBorrow : Prop :=
  DecodesAs 0xF00F 0x8005 (fun op => .sub (opX op) (opY op)) ∧
  DecodesAs 0xF00F 0x8007 (fun op => .subn (opX op) (opY op)) ∧
  ∀ (x y : RegIx) (s : State),
    (∃ t, exec (.sub x y) s = .next t ∧ Frame { regs := fun r => r = x ∨ r = 0xF } s t ∧
      (x ≠ 0xF → (t.reg x).toNat = ((s.reg x).toNat + 0x100 - (s.reg y).toNat) % 2 ^ 8) ∧
      t.reg 0xF = if (s.reg y).toNat ≤ (s.reg x).toNat then 0x01 else 0x00) ∧
    (∃ t, exec (.subn x y) s = .next t ∧ Frame { regs := fun r => r = x ∨ r = 0xF } s t ∧
      (x ≠ 0xF → (t.reg x).toNat = ((s.reg y).toNat + 0x100 - (s.reg x).toNat) % 2 ^ 8) ∧
      t.reg 0xF = if (s.reg x).toNat ≤ (s.reg y).toNat then 0x01 else 0x00)

/-- SHR and SHL shift V[Y] into V[X] under ORIGINAL and V[X] in place under MODERN; VF takes the bit shifted out
(42_alu.md section 3, the profiles' names and the flag by decision D14). -/
def Obligations.ShiftsFollowTheProfile : Prop :=
  DecodesAs 0xF00F 0x8006 (fun op => .shr (opX op) (opY op)) ∧
  DecodesAs 0xF00F 0x800E (fun op => .shl (opX op) (opY op)) ∧
  ∀ (x y : RegIx) (s : State) (src : Byte),
    (s.cfg.shiftProfile = .original → src = s.reg y) → (s.cfg.shiftProfile = .modern → src = s.reg x) →
    (∃ t, exec (.shr x y) s = .next t ∧ Frame { regs := fun r => r = x ∨ r = 0xF } s t ∧
      (x ≠ 0xF → (t.reg x).toNat = src.toNat / 2) ∧ (t.reg 0xF).toNat = src.toNat % 2) ∧
    (∃ t, exec (.shl x y) s = .next t ∧ Frame { regs := fun r => r = x ∨ r = 0xF } s t ∧
      (x ≠ 0xF → (t.reg x).toNat = 2 * src.toNat % 2 ^ 8) ∧ (t.reg 0xF).toNat = src.toNat / 128)

/-- R133: in 8XY4, 8XY5, 8XY6, 8XY7 and 8XYE the flag write is the last: with X = F, VF ends holding the flag the
old operands give, and the data result is lost; an old VF named by Y is read before either write. -/
def Obligations.FlagOverwritesData : Prop :=
  ∀ (y : RegIx) (s : State),
    (∃ t, exec (.addReg 0xF y) s = .next t ∧ t.reg 0xF = flagByte (addCarry (s.reg 0xF) (s.reg y)) ∧
      Frame { regs := (· = 0xF) } s t) ∧
    (∃ t, exec (.sub 0xF y) s = .next t ∧ t.reg 0xF = flagByte (noBorrow (s.reg 0xF) (s.reg y)) ∧
      Frame { regs := (· = 0xF) } s t) ∧
    (∃ t, exec (.subn 0xF y) s = .next t ∧ t.reg 0xF = flagByte (noBorrow (s.reg y) (s.reg 0xF)) ∧
      Frame { regs := (· = 0xF) } s t) ∧
    (∃ t, exec (.shr 0xF y) s = .next t ∧ t.reg 0xF = flagByte (shrOut (s.shiftSource 0xF y)) ∧
      Frame { regs := (· = 0xF) } s t) ∧
    (∃ t, exec (.shl 0xF y) s = .next t ∧ t.reg 0xF = flagByte (shlOut (s.shiftSource 0xF y)) ∧
      Frame { regs := (· = 0xF) } s t) ∧
    ∀ x : RegIx, x ≠ 0xF →
      (∃ t, exec (.addReg x 0xF) s = .next t ∧ t.reg x = s.reg x + s.reg 0xF) ∧
      (∃ t, exec (.sub x 0xF) s = .next t ∧ t.reg x = s.reg x - s.reg 0xF) ∧
      (∃ t, exec (.subn x 0xF) s = .next t ∧ t.reg x = s.reg 0xF - s.reg x) ∧
      (∃ t, exec (.shr x 0xF) s = .next t ∧ t.reg x = s.shiftSource x 0xF >>> 1) ∧
      (∃ t, exec (.shl x 0xF) s = .next t ∧ t.reg x = s.shiftSource x 0xF <<< 1)

/-- RND writes the random byte masked by NN: whatever byte the input lists, or a free value when it lists none;
the byte is used up, so that the next RND draws afresh (42_alu.md section 5, decision D21; log 6). -/
def Obligations.RndMasksAFreshByte : Prop :=
  DecodesAs 0xF000 0xC000 (fun op => .rnd (opX op) (opNN op)) ∧
  ∀ (x : RegIx) (nn : Byte) (s : State),
    (∀ b rest, s.random = b :: rest → ∃ t, exec (.rnd x nn) s = .next t ∧ t.reg x = b &&& nn ∧
      t.random = rest ∧ t.freeDraws = s.freeDraws ∧ Frame { regs := (· = x), draws := True } s t) ∧
    (s.random = [] → ∃ t, exec (.rnd x nn) s = .next t ∧ t.reg x = Config.freeByte s.freeDraws &&& nn ∧
      t.random = [] ∧ t.freeDraws = s.freeDraws + 1 ∧ Frame { regs := (· = x), draws := True } s t)

/-- No instruction but the two shifts depends on the profile, no instruction changes it, and neither do a step, a
reset or a validation of the display (42_alu.md section 3, profile selection). -/
def Obligations.OnlyShiftsReadTheProfile : Prop :=
  (∀ (i : Instr) (s t : State) (p : ShiftProfile), (∀ x y, i ≠ .shr x y ∧ i ≠ .shl x y) →
    exec i s = .next t →
    exec i { s with cfg := { s.cfg with shiftProfile := p } } =
      .next { t with cfg := { t.cfg with shiftProfile := p } }) ∧
  (∀ (i : Instr) (s t : State), exec i s = .next t → t.cfg.shiftProfile = s.cfg.shiftProfile) ∧
  (∀ (call : HostCall) (s t : State), transact call s = .next t → t.cfg = s.cfg)

/-! ## Index register and memory -/

/-- R161: LD I, NNN sets I to NNN and nothing else. -/
def Obligations.LdISetsIndex : Prop :=
  DecodesAs 0xF000 0xA000 (fun op => .ldI (opNNN op)) ∧
  ∀ (nnn : Addr) (s : State), ∃ t, exec (.ldI nnn) s = .next t ∧ t.i.toNat = nnn.toNat ∧
    Frame { index := True } s t

/-- ADD I, Vx adds modulo 2^16 without a flag; LD F, Vx points I at the glyph of the low nibble of V[X]
(43_index_memory.md section 1, decisions D16 and D17). -/
def Obligations.IndexArithmetic : Prop :=
  DecodesAs 0xF0FF 0xF01E (fun op => .addI (opX op)) ∧
  DecodesAs 0xF0FF 0xF029 (fun op => .ldF (opX op)) ∧
  ∀ (x : RegIx) (s : State),
    (∃ t, exec (.addI x) s = .next t ∧ t.i.toNat = (s.i.toNat + (s.reg x).toNat) % 2 ^ 16 ∧
      Frame { index := True } s t) ∧
    (∃ t, exec (.ldF x) s = .next t ∧ t.i.toNat = 5 * ((s.reg x).toNat % 16) ∧ Frame { index := True } s t)

/-- LD B stores the hundreds, tens and ones of V[X] at I, I + 1, I + 2 and leaves I alone; if they do not all exist
it faults with INDEX_OUT_OF_BOUNDS and stores nothing (43_index_memory.md section 2, decisions D7 and D19). The
canonical form of memory is part of the invariant. -/
def Obligations.LdBStoresDigits : Prop :=
  DecodesAs 0xF0FF 0xF033 (fun op => .ldB (opX op)) ∧
  ∀ (x : RegIx) (s : State),
    (Memory.wf s.cfg s.mem → s.i.toNat + 2 < s.cfg.memSize → ∃ t, exec (.ldB x) s = .next t ∧
      (t.byte s.i.toNat).toNat = (s.reg x).toNat / 100 ∧
      (t.byte (s.i.toNat + 1)).toNat = (s.reg x).toNat / 10 % 10 ∧
      (t.byte (s.i.toNat + 2)).toNat = (s.reg x).toNat % 10 ∧
      Frame { bytes := Span s.i.toNat 3 } s t) ∧
    (s.cfg.memSize ≤ s.i.toNat + 2 → exec (.ldB x) s = .next { s with fail := .indexOutOfBounds })

/-- R166: LD [I], Vx stores V[0] ... V[X] from I on and advances I by X + 1 modulo 2^16; if the last byte does not
exist it faults with INDEX_OUT_OF_BOUNDS, nothing written and I unchanged. The canonical form of memory is part
of the invariant. -/
def Obligations.StoreRegsStoresBlock : Prop :=
  DecodesAs 0xF0FF 0xF055 (fun op => .storeRegs (opX op)) ∧
  ∀ (x : RegIx) (s : State),
    (Memory.wf s.cfg s.mem → s.i.toNat + x.val < s.cfg.memSize → ∃ t, exec (.storeRegs x) s = .next t ∧
      (∀ r : RegIx, r ≤ x → t.byte (s.i.toNat + r.val) = s.reg r) ∧
      t.i.toNat = (s.i.toNat + x.val + 1) % 2 ^ 16 ∧
      Frame { bytes := Span s.i.toNat (x.val + 1), index := True } s t) ∧
    (s.cfg.memSize ≤ s.i.toNat + x.val → exec (.storeRegs x) s = .next { s with fail := .indexOutOfBounds })

/-- R167: LD Vx, [I] loads V[0] ... V[X] from I on and advances I by X + 1 modulo 2^16; if the last byte does not
exist it faults with INDEX_OUT_OF_BOUNDS, no register written and I unchanged. -/
def Obligations.LoadRegsLoadsBlock : Prop :=
  DecodesAs 0xF0FF 0xF065 (fun op => .loadRegs (opX op)) ∧
  ∀ (x : RegIx) (s : State),
    (s.i.toNat + x.val < s.cfg.memSize → ∃ t, exec (.loadRegs x) s = .next t ∧
      (∀ r : RegIx, r ≤ x → t.reg r = s.byte (s.i.toNat + r.val)) ∧
      t.i.toNat = (s.i.toNat + x.val + 1) % 2 ^ 16 ∧
      Frame { regs := (· ≤ x), index := True } s t) ∧
    (s.cfg.memSize ≤ s.i.toNat + x.val → exec (.loadRegs x) s = .next { s with fail := .indexOutOfBounds })

/-- A fetch sees earlier stores: after LD [I], V1 at an address P, the opcode fetched at P is V[0] and V[1], the
first the more significant (20_memory.md sections 3 and 5). -/
def Obligations.FetchSeesStores : Prop :=
  ∀ s : State, Memory.wf s.cfg s.mem → s.i.toNat + 1 < s.cfg.memSize →
    ∃ t, exec (.storeRegs 1) s = .next t ∧
      ∀ u : State, u.cfg = t.cfg → u.mem = t.mem → u.pc = s.i →
        u.fetchWord.toNat = (s.reg 0).toNat * 0x100 + (s.reg 1).toNat

/-! ## Display -/

/-- R181: CLS turns every pixel off, invalidates the whole framebuffer and sets FRAME_UPDATED; VF and everything
else stay. -/
def Obligations.ClsClearsTheDisplay : Prop :=
  DecodesAs 0xFFFF 0x00E0 (fun _ => .cls) ∧
  ∀ s : State, ∃ t, exec .cls s = .next t ∧ (∀ px py, t.pixel px py = false) ∧
    Framebuffer.Shaped s.cfg.displayW s.cfg.displayH t.fb ∧
    t.invalidated = some .whole ∧ t.frameUpdated = true ∧ Frame { display := True } s t

/-- DRW with N = 0 draws nothing, invalidates nothing and clears VF (44_display.md section 3, decision D29). -/
def Obligations.DrwWithoutRowsClearsVF : Prop :=
  DecodesAs 0xF000 0xD000 (fun op => .drw (opX op) (opY op) (opN op)) ∧
  ∀ (x y : RegIx) (s : State), ∃ t, exec (.drw x y 0) s = .next t ∧ t.reg 0xF = 0x00 ∧
    Frame { regs := (· = 0xF) } s t

/-- DRW with rows draws the sprite: a pixel on the screen is inverted exactly where the sprite covers it, with the
origin wrapped and the body clipped; the touched rectangle is invalidated and FRAME_UPDATED set; only VF and the
display change. If a sprite byte does not exist it faults with INDEX_OUT_OF_BOUNDS and changes nothing else
(44_display.md section 3; the bit order, the check of clipped rows and the rectangle by decisions D30, D7, D31).
The shape of the framebuffer is part of the invariant. -/
def Obligations.DrwXorsTheSprite : Prop :=
  ∀ (x y : RegIx) (n : Count) (s : State), 0 < n.val →
    (s.i.toNat + n.val - 1 < s.cfg.memSize → Framebuffer.Shaped s.cfg.displayW s.cfg.displayH s.fb →
      ∃ t, exec (.drw x y n) s = .next t ∧
        (∀ px py, s.SpriteCovers x y n.val px py → t.pixel px py = !s.pixel px py) ∧
        (∀ px py, ¬ s.SpriteCovers x y n.val px py → t.pixel px py = s.pixel px py) ∧
        t.invalidated = some (.rect ((s.reg x).toNat % s.cfg.displayW) ((s.reg y).toNat % s.cfg.displayH)
          (min 8 (s.cfg.displayW - (s.reg x).toNat % s.cfg.displayW))
          (min n.val (s.cfg.displayH - (s.reg y).toNat % s.cfg.displayH))) ∧
        t.frameUpdated = true ∧ Frame { regs := (· = 0xF), display := True } s t) ∧
    (s.cfg.memSize ≤ s.i.toNat + n.val - 1 →
      exec (.drw x y n) s = .next { s with fail := .indexOutOfBounds })

/-- DRW with rows sets VF to 1 exactly when some pixel the sprite covers was on, else to 0 (44_display.md section 3,
the bit order by decision D30). The shape of the framebuffer is part of the invariant. -/
def Obligations.DrwReportsCollision : Prop :=
  ∀ (x y : RegIx) (n : Count) (s : State), 0 < n.val → s.i.toNat + n.val - 1 < s.cfg.memSize →
    Framebuffer.Shaped s.cfg.displayW s.cfg.displayH s.fb →
    ∃ t, exec (.drw x y n) s = .next t ∧
      ((∃ px py, s.SpriteCovers x y n.val px py ∧ s.pixel px py = true) → t.reg 0xF = 0x01) ∧
      ((∀ px py, s.SpriteCovers x y n.val px py → s.pixel px py = false) → t.reg 0xF = 0x00)

/-- Drawing the same sprite twice at the same place restores every pixel, and the second draw reports a collision
if the sprite covers a pixel that was off before the first, since that one it turned on (44_display.md section 3).
VF names no coordinate, because the first draw writes it. -/
def Obligations.DrwTwiceRestores : Prop :=
  ∀ (x y : RegIx) (n : Count) (s t u : State), s.Inv → x ≠ 0xF → y ≠ 0xF →
    s.fail = .ok → exec (.drw x y n) s = .next t → t.fail = .ok → exec (.drw x y n) t = .next u →
    (∀ px py, u.pixel px py = s.pixel px py) ∧
    ((∃ px py, s.SpriteCovers x y n.val px py ∧ s.pixel px py = false) → u.reg 0xF = 0x01)

/-- The collision detector as a bitmask: on a row of the screen the new pixels are f xor m and the row collides
iff f and m share a bit, m being the clipped sprite byte and f the pixels under it (44_display.md section 3). -/
def Obligations.CollisionIsABitmask : Prop :=
  ∀ (fb : Framebuffer) (coll : Bool) (w h x0 y : Nat) (row : Byte), Framebuffer.Shaped w h fb → y < h →
    ((Canvas.mk fb coll).plotRow w x0 y row).collision =
      (coll || decide (pixelsUnder fb w x0 y &&& clippedByte w x0 row ≠ 0)) ∧
    pixelsUnder ((Canvas.mk fb coll).plotRow w x0 y row).fb w x0 y =
      pixelsUnder fb w x0 y ^^^ clippedByte w x0 row

/-! ## Keys and timers -/

/-- SKP and SKNP skip when the key V[X] is down, or up; a value of 0x10 or more counts as not pressed, names the
key of its low nibble, or is refused, as KEY_INDEX_POLICY says (45_timers_keys.md section 1, decision D22). -/
def Obligations.KeySkips : Prop :=
  DecodesAs 0xF0FF 0xE09E (fun op => .skp (opX op)) ∧
  DecodesAs 0xF0FF 0xE0A1 (fun op => .sknp (opX op)) ∧
  ∀ (x : RegIx) (s : State) (down : Bool),
    (((s.reg x).toNat < 0x10 ∧ down = s.kbd.getLsbD (s.reg x).toNat) ∨
      (0x10 ≤ (s.reg x).toNat ∧ s.cfg.keyIndexPolicy = .notPressed ∧ down = false) ∨
      (0x10 ≤ (s.reg x).toNat ∧ s.cfg.keyIndexPolicy = .lowNibble ∧
        down = s.kbd.getLsbD ((s.reg x).toNat % 0x10)) →
      (∃ t, exec (.skp x) s = .next t ∧ Frame { pc := True } s t ∧
        t.pc.toNat = if down then (s.pc.toNat + 2) % 2 ^ 16 else s.pc.toNat) ∧
      (∃ t, exec (.sknp x) s = .next t ∧ Frame { pc := True } s t ∧
        t.pc.toNat = if down then s.pc.toNat else (s.pc.toNat + 2) % 2 ^ 16)) ∧
    (0x10 ≤ (s.reg x).toNat → s.cfg.keyIndexPolicy = .refuse →
      exec (.skp x) s = .refused (.keyIndex (s.reg x)) ∧ exec (.sknp x) s = .refused (.keyIndex (s.reg x)))

/-- R204: LD Vx, DT copies the delay timer to V[X], VF included as data, and nothing else. -/
def Obligations.LdVxDtReadsTheTimer : Prop :=
  DecodesAs 0xF0FF 0xF007 (fun op => .ldVxDt (opX op)) ∧
  ∀ (x : RegIx) (s : State), ∃ t, exec (.ldVxDt x) s = .next t ∧ t.reg x = s.delay.value ∧
    Frame { regs := (· = x) } s t

/-- LD DT, Vx and LD ST, Vx set a timer to V[X] and restart its deadline one TIMER_PERIOD after CYC; the sound timer
takes 0 for exactly 1 (45_timers_keys.md section 2, the deadline by decision D26). -/
def Obligations.TimerWritesRestartTheDeadline : Prop :=
  DecodesAs 0xF0FF 0xF015 (fun op => .ldDtVx (opX op)) ∧
  DecodesAs 0xF0FF 0xF018 (fun op => .ldStVx (opX op)) ∧
  ∀ (x : RegIx) (s : State),
    (∃ t, exec (.ldDtVx x) s = .next t ∧ t.delay.value = s.reg x ∧
      t.delay.deadline = s.cyc + s.cfg.timerPeriod ∧ Frame { delay := True } s t) ∧
    (∃ t, exec (.ldStVx x) s = .next t ∧ t.sound.value = (if (s.reg x).toNat = 1 then 0 else s.reg x) ∧
      t.sound.deadline = s.cyc + s.cfg.timerPeriod ∧ Frame { sound := True } s t)

/-- R207: LD Vx, K sets HALT to X; V[X] and everything else stay until the release. -/
def Obligations.LdVxKHalts : Prop :=
  DecodesAs 0xF0FF 0xF00A (fun op => .ldVxK (opX op)) ∧
  ∀ (x : RegIx) (s : State), ∃ t, exec (.ldVxK x) s = .next t ∧ t.halt = some x ∧
    Frame { halt := True } s t

/-! ## Whole-machine rules -/

/-- No step writes the call stack but one that runs CALL, and no step moves SP but one that runs CALL or RET
(10_state.md section 4). -/
def Obligations.StackMovesOnlyByCallAndRet : Prop :=
  ∀ s t : State, step s = .next t →
    (t.stack ≠ s.stack → ∃ nnn, decode (s.byte s.pc.toNat ++ s.byte (s.pc.toNat + 1)) = .ok (.call nnn)) ∧
    (t.sp < s.sp → ∃ nnn, decode (s.byte s.pc.toNat ++ s.byte (s.pc.toNat + 1)) = .ok (.call nnn)) ∧
    (s.sp < t.sp → decode (s.byte s.pc.toNat ++ s.byte (s.pc.toNat + 1)) = .ok .ret)

/-- Only LD B and LD [I] change memory (20_memory.md section 1). -/
def Obligations.OnlyStoresWriteMemory : Prop :=
  ∀ (i : Instr) (s t : State), exec i s = .next t → (∃ a, t.byte a ≠ s.byte a) →
    ∃ x, i = .ldB x ∨ i = .storeRegs x

/-! ## Reset -/

/-- R262: the load's validation, in its order. -/
def Obligations.LoadValidation : Prop :=
  ∀ (s : State) (p : List Byte),
    (p.length = 0 → (s.resetWith p).fail = .noProgram) ∧
    (p.length = 1 → (s.resetWith p).fail = .programTooSmall) ∧
    (2 ≤ p.length → s.cfg.memSize < 0x200 + p.length → (s.resetWith p).fail = .programTooLarge) ∧
    (2 ≤ p.length → 0x200 + p.length ≤ s.cfg.memSize → (s.resetWith p).fail = .ok)

/-- After a failed load the registers, stack, timers, counters and key state have their reset values, memory is zero
but for the font, the display is blank and wholly invalidated, and the core has no step (10_state.md section 10,
70_reset_and_hazards.md section 1; decisions D32 and, for the font, D33). -/
def Obligations.FailedLoadLeavesABlankScreen : Prop :=
  ∀ (s : State) (p : List Byte), (s.resetWith p).fail ≠ .ok → ResetValues s.cfg (s.resetWith p) ∧
    (∀ a, a < 80 → (s.resetWith p).byte a = s.cfg.font.getD a 0) ∧
    (∀ a, 80 ≤ a → (s.resetWith p).byte a = 0) ∧ (∀ px py, (s.resetWith p).pixel px py = false) ∧
    (s.resetWith p).invalidated = some .whole ∧ (s.resetWith p).frameUpdated = true ∧
    step (s.resetWith p) = .fault (.notOk (s.resetWith p).fail)

/-- After a successful load the core has been reset and is ok and RUNNING, so that it has a step; memory holds the
font at 0 ... 79, zeros up to 0x1FF, the program from 0x200 and zeros after it; the registers, stack, timers,
counters and key state have their reset values (20_memory.md section 1, 10_state.md section 10; decisions D32 to
D34). -/
def Obligations.SuccessfulLoadImage : Prop :=
  ∀ (s : State) (p : List Byte), (s.resetWith p).fail = .ok → ResetValues s.cfg (s.resetWith p) ∧
    (s.resetWith p).Running ∧
    (∀ a, a < 80 → (s.resetWith p).byte a = s.cfg.font.getD a 0) ∧
    (∀ a, 80 ≤ a → a < 0x200 → (s.resetWith p).byte a = 0) ∧
    (∀ a, 0x200 ≤ a → (s.resetWith p).byte a = p.getD (a - 0x200) 0) ∧
    (s.resetWith p).fb = s.cfg.fb0

/-- R266: a second reset with the same program, after any number of cycles, gives the same memory, registers and PC
as the first. -/
def Obligations.ResetIsIdempotent : Prop :=
  ∀ (s t : State) (p : List Byte) (n : Nat), Host.Core.run core n (s.resetWith p) = .next t →
    (t.resetWith p).mem = (s.resetWith p).mem ∧ (t.resetWith p).v = (s.resetWith p).v ∧
    (t.resetWith p).pc = (s.resetWith p).pc ∧ (t.resetWith p).fail = (s.resetWith p).fail ∧
    ((s.resetWith p).resetWith p).mem = (s.resetWith p).mem
end

