-- ==== Sys2Proof/Laws/State.lean ====
section
/-! SUPPORT. One lemma per field per update of the state, so that no later proof unfolds a record update. `reg`,
`byte`, `pixel` and `dataAddr` are read as fields are. -/

namespace Sys2Proof.Machine

variable (s : State)

/-! ## setReg -/

@[simp] theorem setReg_cfg (x : RegIx) (b : Byte) : (s.setReg x b).cfg = s.cfg := rfl
@[simp] theorem setReg_wasReset (x : RegIx) (b : Byte) : (s.setReg x b).wasReset = s.wasReset := rfl
@[simp] theorem setReg_v (x : RegIx) (b : Byte) : (s.setReg x b).v = s.v.set x.val b := rfl
@[simp] theorem setReg_pc (x : RegIx) (b : Byte) : (s.setReg x b).pc = s.pc := rfl
@[simp] theorem setReg_i (x : RegIx) (b : Byte) : (s.setReg x b).i = s.i := rfl
@[simp] theorem setReg_sp (x : RegIx) (b : Byte) : (s.setReg x b).sp = s.sp := rfl
@[simp] theorem setReg_stack (x : RegIx) (b : Byte) : (s.setReg x b).stack = s.stack := rfl
@[simp] theorem setReg_delay (x : RegIx) (b : Byte) : (s.setReg x b).delay = s.delay := rfl
@[simp] theorem setReg_sound (x : RegIx) (b : Byte) : (s.setReg x b).sound = s.sound := rfl
@[simp] theorem setReg_cyc (x : RegIx) (b : Byte) : (s.setReg x b).cyc = s.cyc := rfl
@[simp] theorem setReg_halt (x : RegIx) (b : Byte) : (s.setReg x b).halt = s.halt := rfl
@[simp] theorem setReg_kbd (x : RegIx) (b : Byte) : (s.setReg x b).kbd = s.kbd := rfl
@[simp] theorem setReg_kbdPrev (x : RegIx) (b : Byte) : (s.setReg x b).kbdPrev = s.kbdPrev := rfl
@[simp] theorem setReg_fail (x : RegIx) (b : Byte) : (s.setReg x b).fail = s.fail := rfl
@[simp] theorem setReg_mem (x : RegIx) (b : Byte) : (s.setReg x b).mem = s.mem := rfl
@[simp] theorem setReg_fb (x : RegIx) (b : Byte) : (s.setReg x b).fb = s.fb := rfl
@[simp] theorem setReg_frameUpdated (x : RegIx) (b : Byte) : (s.setReg x b).frameUpdated = s.frameUpdated := rfl
@[simp] theorem setReg_invalidated (x : RegIx) (b : Byte) : (s.setReg x b).invalidated = s.invalidated := rfl
@[simp] theorem setReg_keypad (x : RegIx) (b : Byte) : (s.setReg x b).keypad = s.keypad := rfl
@[simp] theorem setReg_random (x : RegIx) (b : Byte) : (s.setReg x b).random = s.random := rfl
@[simp] theorem setReg_freeDraws (x : RegIx) (b : Byte) : (s.setReg x b).freeDraws = s.freeDraws := rfl
@[simp] theorem setReg_lastCost (x : RegIx) (b : Byte) : (s.setReg x b).lastCost = s.lastCost := rfl
@[simp] theorem setReg_byte (x : RegIx) (b : Byte) (k : Nat) : (s.setReg x b).byte k = s.byte k := rfl
@[simp] theorem setReg_pixel (x : RegIx) (b : Byte) (p q' : Nat) : (s.setReg x b).pixel p q' = s.pixel p q' := rfl
@[simp] theorem setReg_dataAddr (x : RegIx) (b : Byte) (k : Nat) : (s.setReg x b).dataAddr k = s.dataAddr k := rfl

/-! ## setPc -/

@[simp] theorem setPc_cfg (w : Word) : (s.setPc w).cfg = s.cfg := rfl
@[simp] theorem setPc_wasReset (w : Word) : (s.setPc w).wasReset = s.wasReset := rfl
@[simp] theorem setPc_v (w : Word) : (s.setPc w).v = s.v := rfl
@[simp] theorem setPc_pc (w : Word) : (s.setPc w).pc = w := rfl
@[simp] theorem setPc_i (w : Word) : (s.setPc w).i = s.i := rfl
@[simp] theorem setPc_sp (w : Word) : (s.setPc w).sp = s.sp := rfl
@[simp] theorem setPc_stack (w : Word) : (s.setPc w).stack = s.stack := rfl
@[simp] theorem setPc_delay (w : Word) : (s.setPc w).delay = s.delay := rfl
@[simp] theorem setPc_sound (w : Word) : (s.setPc w).sound = s.sound := rfl
@[simp] theorem setPc_cyc (w : Word) : (s.setPc w).cyc = s.cyc := rfl
@[simp] theorem setPc_halt (w : Word) : (s.setPc w).halt = s.halt := rfl
@[simp] theorem setPc_kbd (w : Word) : (s.setPc w).kbd = s.kbd := rfl
@[simp] theorem setPc_kbdPrev (w : Word) : (s.setPc w).kbdPrev = s.kbdPrev := rfl
@[simp] theorem setPc_fail (w : Word) : (s.setPc w).fail = s.fail := rfl
@[simp] theorem setPc_mem (w : Word) : (s.setPc w).mem = s.mem := rfl
@[simp] theorem setPc_fb (w : Word) : (s.setPc w).fb = s.fb := rfl
@[simp] theorem setPc_frameUpdated (w : Word) : (s.setPc w).frameUpdated = s.frameUpdated := rfl
@[simp] theorem setPc_invalidated (w : Word) : (s.setPc w).invalidated = s.invalidated := rfl
@[simp] theorem setPc_keypad (w : Word) : (s.setPc w).keypad = s.keypad := rfl
@[simp] theorem setPc_random (w : Word) : (s.setPc w).random = s.random := rfl
@[simp] theorem setPc_freeDraws (w : Word) : (s.setPc w).freeDraws = s.freeDraws := rfl
@[simp] theorem setPc_lastCost (w : Word) : (s.setPc w).lastCost = s.lastCost := rfl
@[simp] theorem setPc_reg (w : Word) (r : RegIx) : (s.setPc w).reg r = s.reg r := rfl
@[simp] theorem setPc_byte (w : Word) (k : Nat) : (s.setPc w).byte k = s.byte k := rfl
@[simp] theorem setPc_pixel (w : Word) (p q' : Nat) : (s.setPc w).pixel p q' = s.pixel p q' := rfl
@[simp] theorem setPc_dataAddr (w : Word) (k : Nat) : (s.setPc w).dataAddr k = s.dataAddr k := rfl

/-! ## skipIf -/

@[simp] theorem skipIf_cfg (c : Bool) : (s.skipIf c).cfg = s.cfg := by cases c <;> rfl
@[simp] theorem skipIf_wasReset (c : Bool) : (s.skipIf c).wasReset = s.wasReset := by cases c <;> rfl
@[simp] theorem skipIf_v (c : Bool) : (s.skipIf c).v = s.v := by cases c <;> rfl
@[simp] theorem skipIf_pc (c : Bool) : (s.skipIf c).pc = if c then s.pc + 2 else s.pc := by cases c <;> rfl
@[simp] theorem skipIf_i (c : Bool) : (s.skipIf c).i = s.i := by cases c <;> rfl
@[simp] theorem skipIf_sp (c : Bool) : (s.skipIf c).sp = s.sp := by cases c <;> rfl
@[simp] theorem skipIf_stack (c : Bool) : (s.skipIf c).stack = s.stack := by cases c <;> rfl
@[simp] theorem skipIf_delay (c : Bool) : (s.skipIf c).delay = s.delay := by cases c <;> rfl
@[simp] theorem skipIf_sound (c : Bool) : (s.skipIf c).sound = s.sound := by cases c <;> rfl
@[simp] theorem skipIf_cyc (c : Bool) : (s.skipIf c).cyc = s.cyc := by cases c <;> rfl
@[simp] theorem skipIf_halt (c : Bool) : (s.skipIf c).halt = s.halt := by cases c <;> rfl
@[simp] theorem skipIf_kbd (c : Bool) : (s.skipIf c).kbd = s.kbd := by cases c <;> rfl
@[simp] theorem skipIf_kbdPrev (c : Bool) : (s.skipIf c).kbdPrev = s.kbdPrev := by cases c <;> rfl
@[simp] theorem skipIf_fail (c : Bool) : (s.skipIf c).fail = s.fail := by cases c <;> rfl
@[simp] theorem skipIf_mem (c : Bool) : (s.skipIf c).mem = s.mem := by cases c <;> rfl
@[simp] theorem skipIf_fb (c : Bool) : (s.skipIf c).fb = s.fb := by cases c <;> rfl
@[simp] theorem skipIf_frameUpdated (c : Bool) : (s.skipIf c).frameUpdated = s.frameUpdated := by cases c <;> rfl
@[simp] theorem skipIf_invalidated (c : Bool) : (s.skipIf c).invalidated = s.invalidated := by cases c <;> rfl
@[simp] theorem skipIf_keypad (c : Bool) : (s.skipIf c).keypad = s.keypad := by cases c <;> rfl
@[simp] theorem skipIf_random (c : Bool) : (s.skipIf c).random = s.random := by cases c <;> rfl
@[simp] theorem skipIf_freeDraws (c : Bool) : (s.skipIf c).freeDraws = s.freeDraws := by cases c <;> rfl
@[simp] theorem skipIf_lastCost (c : Bool) : (s.skipIf c).lastCost = s.lastCost := by cases c <;> rfl
@[simp] theorem skipIf_reg (c : Bool) (r : RegIx) : (s.skipIf c).reg r = s.reg r := by cases c <;> rfl
@[simp] theorem skipIf_byte (c : Bool) (k : Nat) : (s.skipIf c).byte k = s.byte k := by cases c <;> rfl
@[simp] theorem skipIf_pixel (c : Bool) (p q' : Nat) : (s.skipIf c).pixel p q' = s.pixel p q' := by cases c <;> rfl
@[simp] theorem skipIf_dataAddr (c : Bool) (k : Nat) : (s.skipIf c).dataAddr k = s.dataAddr k := by cases c <;> rfl

/-! ## afterFetch -/

@[simp] theorem afterFetch_cfg : s.afterFetch.cfg = s.cfg := rfl
@[simp] theorem afterFetch_wasReset : s.afterFetch.wasReset = s.wasReset := rfl
@[simp] theorem afterFetch_v : s.afterFetch.v = s.v := rfl
@[simp] theorem afterFetch_pc : s.afterFetch.pc = s.pc + 2 := rfl
@[simp] theorem afterFetch_i : s.afterFetch.i = s.i := rfl
@[simp] theorem afterFetch_sp : s.afterFetch.sp = s.sp := rfl
@[simp] theorem afterFetch_stack : s.afterFetch.stack = s.stack := rfl
@[simp] theorem afterFetch_delay : s.afterFetch.delay = s.delay := rfl
@[simp] theorem afterFetch_sound : s.afterFetch.sound = s.sound := rfl
@[simp] theorem afterFetch_cyc : s.afterFetch.cyc = s.cyc := rfl
@[simp] theorem afterFetch_halt : s.afterFetch.halt = s.halt := rfl
@[simp] theorem afterFetch_kbd : s.afterFetch.kbd = s.kbd := rfl
@[simp] theorem afterFetch_kbdPrev : s.afterFetch.kbdPrev = s.kbdPrev := rfl
@[simp] theorem afterFetch_fail : s.afterFetch.fail = s.fail := rfl
@[simp] theorem afterFetch_mem : s.afterFetch.mem = s.mem := rfl
@[simp] theorem afterFetch_fb : s.afterFetch.fb = s.fb := rfl
@[simp] theorem afterFetch_frameUpdated : s.afterFetch.frameUpdated = s.frameUpdated := rfl
@[simp] theorem afterFetch_invalidated : s.afterFetch.invalidated = s.invalidated := rfl
@[simp] theorem afterFetch_keypad : s.afterFetch.keypad = s.keypad := rfl
@[simp] theorem afterFetch_random : s.afterFetch.random = s.random := rfl
@[simp] theorem afterFetch_freeDraws : s.afterFetch.freeDraws = s.freeDraws := rfl
@[simp] theorem afterFetch_lastCost : s.afterFetch.lastCost = s.lastCost := rfl
@[simp] theorem afterFetch_reg (r : RegIx) : s.afterFetch.reg r = s.reg r := rfl
@[simp] theorem afterFetch_byte (k : Nat) : s.afterFetch.byte k = s.byte k := rfl
@[simp] theorem afterFetch_pixel (p q' : Nat) : s.afterFetch.pixel p q' = s.pixel p q' := rfl
@[simp] theorem afterFetch_dataAddr (k : Nat) : s.afterFetch.dataAddr k = s.dataAddr k := rfl

/-! ## setI -/

@[simp] theorem setI_cfg (w : Word) : (s.setI w).cfg = s.cfg := rfl
@[simp] theorem setI_wasReset (w : Word) : (s.setI w).wasReset = s.wasReset := rfl
@[simp] theorem setI_v (w : Word) : (s.setI w).v = s.v := rfl
@[simp] theorem setI_pc (w : Word) : (s.setI w).pc = s.pc := rfl
@[simp] theorem setI_i (w : Word) : (s.setI w).i = w := rfl
@[simp] theorem setI_sp (w : Word) : (s.setI w).sp = s.sp := rfl
@[simp] theorem setI_stack (w : Word) : (s.setI w).stack = s.stack := rfl
@[simp] theorem setI_delay (w : Word) : (s.setI w).delay = s.delay := rfl
@[simp] theorem setI_sound (w : Word) : (s.setI w).sound = s.sound := rfl
@[simp] theorem setI_cyc (w : Word) : (s.setI w).cyc = s.cyc := rfl
@[simp] theorem setI_halt (w : Word) : (s.setI w).halt = s.halt := rfl
@[simp] theorem setI_kbd (w : Word) : (s.setI w).kbd = s.kbd := rfl
@[simp] theorem setI_kbdPrev (w : Word) : (s.setI w).kbdPrev = s.kbdPrev := rfl
@[simp] theorem setI_fail (w : Word) : (s.setI w).fail = s.fail := rfl
@[simp] theorem setI_mem (w : Word) : (s.setI w).mem = s.mem := rfl
@[simp] theorem setI_fb (w : Word) : (s.setI w).fb = s.fb := rfl
@[simp] theorem setI_frameUpdated (w : Word) : (s.setI w).frameUpdated = s.frameUpdated := rfl
@[simp] theorem setI_invalidated (w : Word) : (s.setI w).invalidated = s.invalidated := rfl
@[simp] theorem setI_keypad (w : Word) : (s.setI w).keypad = s.keypad := rfl
@[simp] theorem setI_random (w : Word) : (s.setI w).random = s.random := rfl
@[simp] theorem setI_freeDraws (w : Word) : (s.setI w).freeDraws = s.freeDraws := rfl
@[simp] theorem setI_lastCost (w : Word) : (s.setI w).lastCost = s.lastCost := rfl
@[simp] theorem setI_reg (w : Word) (r : RegIx) : (s.setI w).reg r = s.reg r := rfl
@[simp] theorem setI_byte (w : Word) (k : Nat) : (s.setI w).byte k = s.byte k := rfl
@[simp] theorem setI_pixel (w : Word) (p q' : Nat) : (s.setI w).pixel p q' = s.pixel p q' := rfl

/-! ## advanceI -/

@[simp] theorem advanceI_cfg (x : RegIx) : (s.advanceI x).cfg = s.cfg := rfl
@[simp] theorem advanceI_wasReset (x : RegIx) : (s.advanceI x).wasReset = s.wasReset := rfl
@[simp] theorem advanceI_v (x : RegIx) : (s.advanceI x).v = s.v := rfl
@[simp] theorem advanceI_pc (x : RegIx) : (s.advanceI x).pc = s.pc := rfl
@[simp] theorem advanceI_i (x : RegIx) : (s.advanceI x).i = s.i + BitVec.ofNat 16 (x.val + 1) := rfl
@[simp] theorem advanceI_sp (x : RegIx) : (s.advanceI x).sp = s.sp := rfl
@[simp] theorem advanceI_stack (x : RegIx) : (s.advanceI x).stack = s.stack := rfl
@[simp] theorem advanceI_delay (x : RegIx) : (s.advanceI x).delay = s.delay := rfl
@[simp] theorem advanceI_sound (x : RegIx) : (s.advanceI x).sound = s.sound := rfl
@[simp] theorem advanceI_cyc (x : RegIx) : (s.advanceI x).cyc = s.cyc := rfl
@[simp] theorem advanceI_halt (x : RegIx) : (s.advanceI x).halt = s.halt := rfl
@[simp] theorem advanceI_kbd (x : RegIx) : (s.advanceI x).kbd = s.kbd := rfl
@[simp] theorem advanceI_kbdPrev (x : RegIx) : (s.advanceI x).kbdPrev = s.kbdPrev := rfl
@[simp] theorem advanceI_fail (x : RegIx) : (s.advanceI x).fail = s.fail := rfl
@[simp] theorem advanceI_mem (x : RegIx) : (s.advanceI x).mem = s.mem := rfl
@[simp] theorem advanceI_fb (x : RegIx) : (s.advanceI x).fb = s.fb := rfl
@[simp] theorem advanceI_frameUpdated (x : RegIx) : (s.advanceI x).frameUpdated = s.frameUpdated := rfl
@[simp] theorem advanceI_invalidated (x : RegIx) : (s.advanceI x).invalidated = s.invalidated := rfl
@[simp] theorem advanceI_keypad (x : RegIx) : (s.advanceI x).keypad = s.keypad := rfl
@[simp] theorem advanceI_random (x : RegIx) : (s.advanceI x).random = s.random := rfl
@[simp] theorem advanceI_freeDraws (x : RegIx) : (s.advanceI x).freeDraws = s.freeDraws := rfl
@[simp] theorem advanceI_lastCost (x : RegIx) : (s.advanceI x).lastCost = s.lastCost := rfl
@[simp] theorem advanceI_reg (x : RegIx) (r : RegIx) : (s.advanceI x).reg r = s.reg r := rfl
@[simp] theorem advanceI_byte (x : RegIx) (k : Nat) : (s.advanceI x).byte k = s.byte k := rfl
@[simp] theorem advanceI_pixel (x : RegIx) (p q' : Nat) : (s.advanceI x).pixel p q' = s.pixel p q' := rfl

/-! ## setHalt -/

@[simp] theorem setHalt_cfg (h : Option RegIx) : (s.setHalt h).cfg = s.cfg := rfl
@[simp] theorem setHalt_wasReset (h : Option RegIx) : (s.setHalt h).wasReset = s.wasReset := rfl
@[simp] theorem setHalt_v (h : Option RegIx) : (s.setHalt h).v = s.v := rfl
@[simp] theorem setHalt_pc (h : Option RegIx) : (s.setHalt h).pc = s.pc := rfl
@[simp] theorem setHalt_i (h : Option RegIx) : (s.setHalt h).i = s.i := rfl
@[simp] theorem setHalt_sp (h : Option RegIx) : (s.setHalt h).sp = s.sp := rfl
@[simp] theorem setHalt_stack (h : Option RegIx) : (s.setHalt h).stack = s.stack := rfl
@[simp] theorem setHalt_delay (h : Option RegIx) : (s.setHalt h).delay = s.delay := rfl
@[simp] theorem setHalt_sound (h : Option RegIx) : (s.setHalt h).sound = s.sound := rfl
@[simp] theorem setHalt_cyc (h : Option RegIx) : (s.setHalt h).cyc = s.cyc := rfl
@[simp] theorem setHalt_halt (h : Option RegIx) : (s.setHalt h).halt = h := rfl
@[simp] theorem setHalt_kbd (h : Option RegIx) : (s.setHalt h).kbd = s.kbd := rfl
@[simp] theorem setHalt_kbdPrev (h : Option RegIx) : (s.setHalt h).kbdPrev = s.kbdPrev := rfl
@[simp] theorem setHalt_fail (h : Option RegIx) : (s.setHalt h).fail = s.fail := rfl
@[simp] theorem setHalt_mem (h : Option RegIx) : (s.setHalt h).mem = s.mem := rfl
@[simp] theorem setHalt_fb (h : Option RegIx) : (s.setHalt h).fb = s.fb := rfl
@[simp] theorem setHalt_frameUpdated (h : Option RegIx) : (s.setHalt h).frameUpdated = s.frameUpdated := rfl
@[simp] theorem setHalt_invalidated (h : Option RegIx) : (s.setHalt h).invalidated = s.invalidated := rfl
@[simp] theorem setHalt_keypad (h : Option RegIx) : (s.setHalt h).keypad = s.keypad := rfl
@[simp] theorem setHalt_random (h : Option RegIx) : (s.setHalt h).random = s.random := rfl
@[simp] theorem setHalt_freeDraws (h : Option RegIx) : (s.setHalt h).freeDraws = s.freeDraws := rfl
@[simp] theorem setHalt_lastCost (h : Option RegIx) : (s.setHalt h).lastCost = s.lastCost := rfl
@[simp] theorem setHalt_reg (h : Option RegIx) (r : RegIx) : (s.setHalt h).reg r = s.reg r := rfl
@[simp] theorem setHalt_byte (h : Option RegIx) (k : Nat) : (s.setHalt h).byte k = s.byte k := rfl
@[simp] theorem setHalt_pixel (h : Option RegIx) (p q' : Nat) : (s.setHalt h).pixel p q' = s.pixel p q' := rfl
@[simp] theorem setHalt_dataAddr (h : Option RegIx) (k : Nat) : (s.setHalt h).dataAddr k = s.dataAddr k := rfl

/-! ## push -/

@[simp] theorem push_cfg (w : Word) : (s.push w).cfg = s.cfg := rfl
@[simp] theorem push_wasReset (w : Word) : (s.push w).wasReset = s.wasReset := rfl
@[simp] theorem push_v (w : Word) : (s.push w).v = s.v := rfl
@[simp] theorem push_pc (w : Word) : (s.push w).pc = s.pc := rfl
@[simp] theorem push_i (w : Word) : (s.push w).i = s.i := rfl
@[simp] theorem push_sp (w : Word) : (s.push w).sp = s.sp - 1 := rfl
@[simp] theorem push_stack (w : Word) : (s.push w).stack = s.stack.set (s.sp - 1) w := rfl
@[simp] theorem push_delay (w : Word) : (s.push w).delay = s.delay := rfl
@[simp] theorem push_sound (w : Word) : (s.push w).sound = s.sound := rfl
@[simp] theorem push_cyc (w : Word) : (s.push w).cyc = s.cyc := rfl
@[simp] theorem push_halt (w : Word) : (s.push w).halt = s.halt := rfl
@[simp] theorem push_kbd (w : Word) : (s.push w).kbd = s.kbd := rfl
@[simp] theorem push_kbdPrev (w : Word) : (s.push w).kbdPrev = s.kbdPrev := rfl
@[simp] theorem push_fail (w : Word) : (s.push w).fail = s.fail := rfl
@[simp] theorem push_mem (w : Word) : (s.push w).mem = s.mem := rfl
@[simp] theorem push_fb (w : Word) : (s.push w).fb = s.fb := rfl
@[simp] theorem push_frameUpdated (w : Word) : (s.push w).frameUpdated = s.frameUpdated := rfl
@[simp] theorem push_invalidated (w : Word) : (s.push w).invalidated = s.invalidated := rfl
@[simp] theorem push_keypad (w : Word) : (s.push w).keypad = s.keypad := rfl
@[simp] theorem push_random (w : Word) : (s.push w).random = s.random := rfl
@[simp] theorem push_freeDraws (w : Word) : (s.push w).freeDraws = s.freeDraws := rfl
@[simp] theorem push_lastCost (w : Word) : (s.push w).lastCost = s.lastCost := rfl
@[simp] theorem push_reg (w : Word) (r : RegIx) : (s.push w).reg r = s.reg r := rfl
@[simp] theorem push_byte (w : Word) (k : Nat) : (s.push w).byte k = s.byte k := rfl
@[simp] theorem push_pixel (w : Word) (p q' : Nat) : (s.push w).pixel p q' = s.pixel p q' := rfl
@[simp] theorem push_dataAddr (w : Word) (k : Nat) : (s.push w).dataAddr k = s.dataAddr k := rfl

/-! ## pop -/

@[simp] theorem pop_cfg : s.pop.cfg = s.cfg := rfl
@[simp] theorem pop_wasReset : s.pop.wasReset = s.wasReset := rfl
@[simp] theorem pop_v : s.pop.v = s.v := rfl
@[simp] theorem pop_pc : s.pop.pc = s.pc := rfl
@[simp] theorem pop_i : s.pop.i = s.i := rfl
@[simp] theorem pop_sp : s.pop.sp = s.sp + 1 := rfl
@[simp] theorem pop_stack : s.pop.stack = s.stack := rfl
@[simp] theorem pop_delay : s.pop.delay = s.delay := rfl
@[simp] theorem pop_sound : s.pop.sound = s.sound := rfl
@[simp] theorem pop_cyc : s.pop.cyc = s.cyc := rfl
@[simp] theorem pop_halt : s.pop.halt = s.halt := rfl
@[simp] theorem pop_kbd : s.pop.kbd = s.kbd := rfl
@[simp] theorem pop_kbdPrev : s.pop.kbdPrev = s.kbdPrev := rfl
@[simp] theorem pop_fail : s.pop.fail = s.fail := rfl
@[simp] theorem pop_mem : s.pop.mem = s.mem := rfl
@[simp] theorem pop_fb : s.pop.fb = s.fb := rfl
@[simp] theorem pop_frameUpdated : s.pop.frameUpdated = s.frameUpdated := rfl
@[simp] theorem pop_invalidated : s.pop.invalidated = s.invalidated := rfl
@[simp] theorem pop_keypad : s.pop.keypad = s.keypad := rfl
@[simp] theorem pop_random : s.pop.random = s.random := rfl
@[simp] theorem pop_freeDraws : s.pop.freeDraws = s.freeDraws := rfl
@[simp] theorem pop_lastCost : s.pop.lastCost = s.lastCost := rfl
@[simp] theorem pop_reg (r : RegIx) : s.pop.reg r = s.reg r := rfl
@[simp] theorem pop_byte (k : Nat) : s.pop.byte k = s.byte k := rfl
@[simp] theorem pop_pixel (p q' : Nat) : s.pop.pixel p q' = s.pixel p q' := rfl
@[simp] theorem pop_dataAddr (k : Nat) : s.pop.dataAddr k = s.dataAddr k := rfl

/-! ## setByte -/

@[simp] theorem setByte_cfg (a : Nat) (b : Byte) : (s.setByte a b).cfg = s.cfg := rfl
@[simp] theorem setByte_wasReset (a : Nat) (b : Byte) : (s.setByte a b).wasReset = s.wasReset := rfl
@[simp] theorem setByte_v (a : Nat) (b : Byte) : (s.setByte a b).v = s.v := rfl
@[simp] theorem setByte_pc (a : Nat) (b : Byte) : (s.setByte a b).pc = s.pc := rfl
@[simp] theorem setByte_i (a : Nat) (b : Byte) : (s.setByte a b).i = s.i := rfl
@[simp] theorem setByte_sp (a : Nat) (b : Byte) : (s.setByte a b).sp = s.sp := rfl
@[simp] theorem setByte_stack (a : Nat) (b : Byte) : (s.setByte a b).stack = s.stack := rfl
@[simp] theorem setByte_delay (a : Nat) (b : Byte) : (s.setByte a b).delay = s.delay := rfl
@[simp] theorem setByte_sound (a : Nat) (b : Byte) : (s.setByte a b).sound = s.sound := rfl
@[simp] theorem setByte_cyc (a : Nat) (b : Byte) : (s.setByte a b).cyc = s.cyc := rfl
@[simp] theorem setByte_halt (a : Nat) (b : Byte) : (s.setByte a b).halt = s.halt := rfl
@[simp] theorem setByte_kbd (a : Nat) (b : Byte) : (s.setByte a b).kbd = s.kbd := rfl
@[simp] theorem setByte_kbdPrev (a : Nat) (b : Byte) : (s.setByte a b).kbdPrev = s.kbdPrev := rfl
@[simp] theorem setByte_fail (a : Nat) (b : Byte) : (s.setByte a b).fail = s.fail := rfl
@[simp] theorem setByte_mem (a : Nat) (b : Byte) : (s.setByte a b).mem = Memory.write s.cfg s.mem a b := rfl
@[simp] theorem setByte_fb (a : Nat) (b : Byte) : (s.setByte a b).fb = s.fb := rfl
@[simp] theorem setByte_frameUpdated (a : Nat) (b : Byte) : (s.setByte a b).frameUpdated = s.frameUpdated := rfl
@[simp] theorem setByte_invalidated (a : Nat) (b : Byte) : (s.setByte a b).invalidated = s.invalidated := rfl
@[simp] theorem setByte_keypad (a : Nat) (b : Byte) : (s.setByte a b).keypad = s.keypad := rfl
@[simp] theorem setByte_random (a : Nat) (b : Byte) : (s.setByte a b).random = s.random := rfl
@[simp] theorem setByte_freeDraws (a : Nat) (b : Byte) : (s.setByte a b).freeDraws = s.freeDraws := rfl
@[simp] theorem setByte_lastCost (a : Nat) (b : Byte) : (s.setByte a b).lastCost = s.lastCost := rfl
@[simp] theorem setByte_reg (a : Nat) (b : Byte) (r : RegIx) : (s.setByte a b).reg r = s.reg r := rfl
@[simp] theorem setByte_pixel (a : Nat) (b : Byte) (p q' : Nat) : (s.setByte a b).pixel p q' = s.pixel p q' := rfl
@[simp] theorem setByte_dataAddr (a : Nat) (b : Byte) (k : Nat) : (s.setByte a b).dataAddr k = s.dataAddr k := rfl

/-! ## writeBytes -/

@[simp] theorem writeBytes_cfg (a : Nat) (bs : List Byte) : (s.writeBytes a bs).cfg = s.cfg := by induction bs generalizing s a with
  | nil => rfl
  | cons b bs ih => exact ih (s.setByte a b) (a + 1)
@[simp] theorem writeBytes_wasReset (a : Nat) (bs : List Byte) : (s.writeBytes a bs).wasReset = s.wasReset := by induction bs generalizing s a with
  | nil => rfl
  | cons b bs ih => exact ih (s.setByte a b) (a + 1)
@[simp] theorem writeBytes_v (a : Nat) (bs : List Byte) : (s.writeBytes a bs).v = s.v := by induction bs generalizing s a with
  | nil => rfl
  | cons b bs ih => exact ih (s.setByte a b) (a + 1)
@[simp] theorem writeBytes_pc (a : Nat) (bs : List Byte) : (s.writeBytes a bs).pc = s.pc := by induction bs generalizing s a with
  | nil => rfl
  | cons b bs ih => exact ih (s.setByte a b) (a + 1)
@[simp] theorem writeBytes_i (a : Nat) (bs : List Byte) : (s.writeBytes a bs).i = s.i := by induction bs generalizing s a with
  | nil => rfl
  | cons b bs ih => exact ih (s.setByte a b) (a + 1)
@[simp] theorem writeBytes_sp (a : Nat) (bs : List Byte) : (s.writeBytes a bs).sp = s.sp := by induction bs generalizing s a with
  | nil => rfl
  | cons b bs ih => exact ih (s.setByte a b) (a + 1)
@[simp] theorem writeBytes_stack (a : Nat) (bs : List Byte) : (s.writeBytes a bs).stack = s.stack := by induction bs generalizing s a with
  | nil => rfl
  | cons b bs ih => exact ih (s.setByte a b) (a + 1)
@[simp] theorem writeBytes_delay (a : Nat) (bs : List Byte) : (s.writeBytes a bs).delay = s.delay := by induction bs generalizing s a with
  | nil => rfl
  | cons b bs ih => exact ih (s.setByte a b) (a + 1)
@[simp] theorem writeBytes_sound (a : Nat) (bs : List Byte) : (s.writeBytes a bs).sound = s.sound := by induction bs generalizing s a with
  | nil => rfl
  | cons b bs ih => exact ih (s.setByte a b) (a + 1)
@[simp] theorem writeBytes_cyc (a : Nat) (bs : List Byte) : (s.writeBytes a bs).cyc = s.cyc := by induction bs generalizing s a with
  | nil => rfl
  | cons b bs ih => exact ih (s.setByte a b) (a + 1)
@[simp] theorem writeBytes_halt (a : Nat) (bs : List Byte) : (s.writeBytes a bs).halt = s.halt := by induction bs generalizing s a with
  | nil => rfl
  | cons b bs ih => exact ih (s.setByte a b) (a + 1)
@[simp] theorem writeBytes_kbd (a : Nat) (bs : List Byte) : (s.writeBytes a bs).kbd = s.kbd := by induction bs generalizing s a with
  | nil => rfl
  | cons b bs ih => exact ih (s.setByte a b) (a + 1)
@[simp] theorem writeBytes_kbdPrev (a : Nat) (bs : List Byte) : (s.writeBytes a bs).kbdPrev = s.kbdPrev := by induction bs generalizing s a with
  | nil => rfl
  | cons b bs ih => exact ih (s.setByte a b) (a + 1)
@[simp] theorem writeBytes_fail (a : Nat) (bs : List Byte) : (s.writeBytes a bs).fail = s.fail := by induction bs generalizing s a with
  | nil => rfl
  | cons b bs ih => exact ih (s.setByte a b) (a + 1)
@[simp] theorem writeBytes_fb (a : Nat) (bs : List Byte) : (s.writeBytes a bs).fb = s.fb := by induction bs generalizing s a with
  | nil => rfl
  | cons b bs ih => exact ih (s.setByte a b) (a + 1)
@[simp] theorem writeBytes_frameUpdated (a : Nat) (bs : List Byte) : (s.writeBytes a bs).frameUpdated = s.frameUpdated := by induction bs generalizing s a with
  | nil => rfl
  | cons b bs ih => exact ih (s.setByte a b) (a + 1)
@[simp] theorem writeBytes_invalidated (a : Nat) (bs : List Byte) : (s.writeBytes a bs).invalidated = s.invalidated := by induction bs generalizing s a with
  | nil => rfl
  | cons b bs ih => exact ih (s.setByte a b) (a + 1)
@[simp] theorem writeBytes_keypad (a : Nat) (bs : List Byte) : (s.writeBytes a bs).keypad = s.keypad := by induction bs generalizing s a with
  | nil => rfl
  | cons b bs ih => exact ih (s.setByte a b) (a + 1)
@[simp] theorem writeBytes_random (a : Nat) (bs : List Byte) : (s.writeBytes a bs).random = s.random := by induction bs generalizing s a with
  | nil => rfl
  | cons b bs ih => exact ih (s.setByte a b) (a + 1)
@[simp] theorem writeBytes_freeDraws (a : Nat) (bs : List Byte) : (s.writeBytes a bs).freeDraws = s.freeDraws := by induction bs generalizing s a with
  | nil => rfl
  | cons b bs ih => exact ih (s.setByte a b) (a + 1)
@[simp] theorem writeBytes_lastCost (a : Nat) (bs : List Byte) : (s.writeBytes a bs).lastCost = s.lastCost := by induction bs generalizing s a with
  | nil => rfl
  | cons b bs ih => exact ih (s.setByte a b) (a + 1)
@[simp] theorem writeBytes_reg (a : Nat) (bs : List Byte) (r : RegIx) : (s.writeBytes a bs).reg r = s.reg r := by
  induction bs generalizing s a with
  | nil => rfl
  | cons b bs ih => exact ih (s.setByte a b) (a + 1)
@[simp] theorem writeBytes_pixel (a : Nat) (bs : List Byte) (p q' : Nat) : (s.writeBytes a bs).pixel p q' = s.pixel p q' := by
  induction bs generalizing s a with
  | nil => rfl
  | cons b bs ih => exact ih (s.setByte a b) (a + 1)
@[simp] theorem writeBytes_dataAddr (a : Nat) (bs : List Byte) (k : Nat) : (s.writeBytes a bs).dataAddr k = s.dataAddr k := by
  induction bs generalizing s a with
  | nil => rfl
  | cons b bs ih => exact ih (s.setByte a b) (a + 1)

/-! ## setFb -/

@[simp] theorem setFb_cfg (f : Framebuffer) : (s.setFb f).cfg = s.cfg := rfl
@[simp] theorem setFb_wasReset (f : Framebuffer) : (s.setFb f).wasReset = s.wasReset := rfl
@[simp] theorem setFb_v (f : Framebuffer) : (s.setFb f).v = s.v := rfl
@[simp] theorem setFb_pc (f : Framebuffer) : (s.setFb f).pc = s.pc := rfl
@[simp] theorem setFb_i (f : Framebuffer) : (s.setFb f).i = s.i := rfl
@[simp] theorem setFb_sp (f : Framebuffer) : (s.setFb f).sp = s.sp := rfl
@[simp] theorem setFb_stack (f : Framebuffer) : (s.setFb f).stack = s.stack := rfl
@[simp] theorem setFb_delay (f : Framebuffer) : (s.setFb f).delay = s.delay := rfl
@[simp] theorem setFb_sound (f : Framebuffer) : (s.setFb f).sound = s.sound := rfl
@[simp] theorem setFb_cyc (f : Framebuffer) : (s.setFb f).cyc = s.cyc := rfl
@[simp] theorem setFb_halt (f : Framebuffer) : (s.setFb f).halt = s.halt := rfl
@[simp] theorem setFb_kbd (f : Framebuffer) : (s.setFb f).kbd = s.kbd := rfl
@[simp] theorem setFb_kbdPrev (f : Framebuffer) : (s.setFb f).kbdPrev = s.kbdPrev := rfl
@[simp] theorem setFb_fail (f : Framebuffer) : (s.setFb f).fail = s.fail := rfl
@[simp] theorem setFb_mem (f : Framebuffer) : (s.setFb f).mem = s.mem := rfl
@[simp] theorem setFb_fb (f : Framebuffer) : (s.setFb f).fb = f := rfl
@[simp] theorem setFb_frameUpdated (f : Framebuffer) : (s.setFb f).frameUpdated = s.frameUpdated := rfl
@[simp] theorem setFb_invalidated (f : Framebuffer) : (s.setFb f).invalidated = s.invalidated := rfl
@[simp] theorem setFb_keypad (f : Framebuffer) : (s.setFb f).keypad = s.keypad := rfl
@[simp] theorem setFb_random (f : Framebuffer) : (s.setFb f).random = s.random := rfl
@[simp] theorem setFb_freeDraws (f : Framebuffer) : (s.setFb f).freeDraws = s.freeDraws := rfl
@[simp] theorem setFb_lastCost (f : Framebuffer) : (s.setFb f).lastCost = s.lastCost := rfl
@[simp] theorem setFb_reg (f : Framebuffer) (r : RegIx) : (s.setFb f).reg r = s.reg r := rfl
@[simp] theorem setFb_byte (f : Framebuffer) (k : Nat) : (s.setFb f).byte k = s.byte k := rfl
@[simp] theorem setFb_dataAddr (f : Framebuffer) (k : Nat) : (s.setFb f).dataAddr k = s.dataAddr k := rfl

/-! ## invalidate -/

@[simp] theorem invalidate_cfg (q : Invalidation) : (s.invalidate q).cfg = s.cfg := rfl
@[simp] theorem invalidate_wasReset (q : Invalidation) : (s.invalidate q).wasReset = s.wasReset := rfl
@[simp] theorem invalidate_v (q : Invalidation) : (s.invalidate q).v = s.v := rfl
@[simp] theorem invalidate_pc (q : Invalidation) : (s.invalidate q).pc = s.pc := rfl
@[simp] theorem invalidate_i (q : Invalidation) : (s.invalidate q).i = s.i := rfl
@[simp] theorem invalidate_sp (q : Invalidation) : (s.invalidate q).sp = s.sp := rfl
@[simp] theorem invalidate_stack (q : Invalidation) : (s.invalidate q).stack = s.stack := rfl
@[simp] theorem invalidate_delay (q : Invalidation) : (s.invalidate q).delay = s.delay := rfl
@[simp] theorem invalidate_sound (q : Invalidation) : (s.invalidate q).sound = s.sound := rfl
@[simp] theorem invalidate_cyc (q : Invalidation) : (s.invalidate q).cyc = s.cyc := rfl
@[simp] theorem invalidate_halt (q : Invalidation) : (s.invalidate q).halt = s.halt := rfl
@[simp] theorem invalidate_kbd (q : Invalidation) : (s.invalidate q).kbd = s.kbd := rfl
@[simp] theorem invalidate_kbdPrev (q : Invalidation) : (s.invalidate q).kbdPrev = s.kbdPrev := rfl
@[simp] theorem invalidate_fail (q : Invalidation) : (s.invalidate q).fail = s.fail := rfl
@[simp] theorem invalidate_mem (q : Invalidation) : (s.invalidate q).mem = s.mem := rfl
@[simp] theorem invalidate_fb (q : Invalidation) : (s.invalidate q).fb = s.fb := rfl
@[simp] theorem invalidate_frameUpdated (q : Invalidation) : (s.invalidate q).frameUpdated = true := rfl
@[simp] theorem invalidate_invalidated (q : Invalidation) : (s.invalidate q).invalidated = some q := rfl
@[simp] theorem invalidate_keypad (q : Invalidation) : (s.invalidate q).keypad = s.keypad := rfl
@[simp] theorem invalidate_random (q : Invalidation) : (s.invalidate q).random = s.random := rfl
@[simp] theorem invalidate_freeDraws (q : Invalidation) : (s.invalidate q).freeDraws = s.freeDraws := rfl
@[simp] theorem invalidate_lastCost (q : Invalidation) : (s.invalidate q).lastCost = s.lastCost := rfl
@[simp] theorem invalidate_reg (q : Invalidation) (r : RegIx) : (s.invalidate q).reg r = s.reg r := rfl
@[simp] theorem invalidate_byte (q : Invalidation) (k : Nat) : (s.invalidate q).byte k = s.byte k := rfl
@[simp] theorem invalidate_pixel (q : Invalidation) (p q' : Nat) : (s.invalidate q).pixel p q' = s.pixel p q' := rfl
@[simp] theorem invalidate_dataAddr (q : Invalidation) (k : Nat) : (s.invalidate q).dataAddr k = s.dataAddr k := rfl

/-! ## setDelay -/

@[simp] theorem setDelay_cfg (t : Timer) : (s.setDelay t).cfg = s.cfg := rfl
@[simp] theorem setDelay_wasReset (t : Timer) : (s.setDelay t).wasReset = s.wasReset := rfl
@[simp] theorem setDelay_v (t : Timer) : (s.setDelay t).v = s.v := rfl
@[simp] theorem setDelay_pc (t : Timer) : (s.setDelay t).pc = s.pc := rfl
@[simp] theorem setDelay_i (t : Timer) : (s.setDelay t).i = s.i := rfl
@[simp] theorem setDelay_sp (t : Timer) : (s.setDelay t).sp = s.sp := rfl
@[simp] theorem setDelay_stack (t : Timer) : (s.setDelay t).stack = s.stack := rfl
@[simp] theorem setDelay_delay (t : Timer) : (s.setDelay t).delay = t := rfl
@[simp] theorem setDelay_sound (t : Timer) : (s.setDelay t).sound = s.sound := rfl
@[simp] theorem setDelay_cyc (t : Timer) : (s.setDelay t).cyc = s.cyc := rfl
@[simp] theorem setDelay_halt (t : Timer) : (s.setDelay t).halt = s.halt := rfl
@[simp] theorem setDelay_kbd (t : Timer) : (s.setDelay t).kbd = s.kbd := rfl
@[simp] theorem setDelay_kbdPrev (t : Timer) : (s.setDelay t).kbdPrev = s.kbdPrev := rfl
@[simp] theorem setDelay_fail (t : Timer) : (s.setDelay t).fail = s.fail := rfl
@[simp] theorem setDelay_mem (t : Timer) : (s.setDelay t).mem = s.mem := rfl
@[simp] theorem setDelay_fb (t : Timer) : (s.setDelay t).fb = s.fb := rfl
@[simp] theorem setDelay_frameUpdated (t : Timer) : (s.setDelay t).frameUpdated = s.frameUpdated := rfl
@[simp] theorem setDelay_invalidated (t : Timer) : (s.setDelay t).invalidated = s.invalidated := rfl
@[simp] theorem setDelay_keypad (t : Timer) : (s.setDelay t).keypad = s.keypad := rfl
@[simp] theorem setDelay_random (t : Timer) : (s.setDelay t).random = s.random := rfl
@[simp] theorem setDelay_freeDraws (t : Timer) : (s.setDelay t).freeDraws = s.freeDraws := rfl
@[simp] theorem setDelay_lastCost (t : Timer) : (s.setDelay t).lastCost = s.lastCost := rfl
@[simp] theorem setDelay_reg (t : Timer) (r : RegIx) : (s.setDelay t).reg r = s.reg r := rfl
@[simp] theorem setDelay_byte (t : Timer) (k : Nat) : (s.setDelay t).byte k = s.byte k := rfl
@[simp] theorem setDelay_pixel (t : Timer) (p q' : Nat) : (s.setDelay t).pixel p q' = s.pixel p q' := rfl
@[simp] theorem setDelay_dataAddr (t : Timer) (k : Nat) : (s.setDelay t).dataAddr k = s.dataAddr k := rfl

/-! ## setSound -/

@[simp] theorem setSound_cfg (t : Timer) : (s.setSound t).cfg = s.cfg := rfl
@[simp] theorem setSound_wasReset (t : Timer) : (s.setSound t).wasReset = s.wasReset := rfl
@[simp] theorem setSound_v (t : Timer) : (s.setSound t).v = s.v := rfl
@[simp] theorem setSound_pc (t : Timer) : (s.setSound t).pc = s.pc := rfl
@[simp] theorem setSound_i (t : Timer) : (s.setSound t).i = s.i := rfl
@[simp] theorem setSound_sp (t : Timer) : (s.setSound t).sp = s.sp := rfl
@[simp] theorem setSound_stack (t : Timer) : (s.setSound t).stack = s.stack := rfl
@[simp] theorem setSound_delay (t : Timer) : (s.setSound t).delay = s.delay := rfl
@[simp] theorem setSound_sound (t : Timer) : (s.setSound t).sound = t := rfl
@[simp] theorem setSound_cyc (t : Timer) : (s.setSound t).cyc = s.cyc := rfl
@[simp] theorem setSound_halt (t : Timer) : (s.setSound t).halt = s.halt := rfl
@[simp] theorem setSound_kbd (t : Timer) : (s.setSound t).kbd = s.kbd := rfl
@[simp] theorem setSound_kbdPrev (t : Timer) : (s.setSound t).kbdPrev = s.kbdPrev := rfl
@[simp] theorem setSound_fail (t : Timer) : (s.setSound t).fail = s.fail := rfl
@[simp] theorem setSound_mem (t : Timer) : (s.setSound t).mem = s.mem := rfl
@[simp] theorem setSound_fb (t : Timer) : (s.setSound t).fb = s.fb := rfl
@[simp] theorem setSound_frameUpdated (t : Timer) : (s.setSound t).frameUpdated = s.frameUpdated := rfl
@[simp] theorem setSound_invalidated (t : Timer) : (s.setSound t).invalidated = s.invalidated := rfl
@[simp] theorem setSound_keypad (t : Timer) : (s.setSound t).keypad = s.keypad := rfl
@[simp] theorem setSound_random (t : Timer) : (s.setSound t).random = s.random := rfl
@[simp] theorem setSound_freeDraws (t : Timer) : (s.setSound t).freeDraws = s.freeDraws := rfl
@[simp] theorem setSound_lastCost (t : Timer) : (s.setSound t).lastCost = s.lastCost := rfl
@[simp] theorem setSound_reg (t : Timer) (r : RegIx) : (s.setSound t).reg r = s.reg r := rfl
@[simp] theorem setSound_byte (t : Timer) (k : Nat) : (s.setSound t).byte k = s.byte k := rfl
@[simp] theorem setSound_pixel (t : Timer) (p q' : Nat) : (s.setSound t).pixel p q' = s.pixel p q' := rfl
@[simp] theorem setSound_dataAddr (t : Timer) (k : Nat) : (s.setSound t).dataAddr k = s.dataAddr k := rfl

/-! ## raise -/

@[simp] theorem raise_cfg (c : FailCode) : (s.raise c).cfg = s.cfg := rfl
@[simp] theorem raise_wasReset (c : FailCode) : (s.raise c).wasReset = s.wasReset := rfl
@[simp] theorem raise_v (c : FailCode) : (s.raise c).v = s.v := rfl
@[simp] theorem raise_pc (c : FailCode) : (s.raise c).pc = s.pc := rfl
@[simp] theorem raise_i (c : FailCode) : (s.raise c).i = s.i := rfl
@[simp] theorem raise_sp (c : FailCode) : (s.raise c).sp = s.sp := rfl
@[simp] theorem raise_stack (c : FailCode) : (s.raise c).stack = s.stack := rfl
@[simp] theorem raise_delay (c : FailCode) : (s.raise c).delay = s.delay := rfl
@[simp] theorem raise_sound (c : FailCode) : (s.raise c).sound = s.sound := rfl
@[simp] theorem raise_cyc (c : FailCode) : (s.raise c).cyc = s.cyc := rfl
@[simp] theorem raise_halt (c : FailCode) : (s.raise c).halt = s.halt := rfl
@[simp] theorem raise_kbd (c : FailCode) : (s.raise c).kbd = s.kbd := rfl
@[simp] theorem raise_kbdPrev (c : FailCode) : (s.raise c).kbdPrev = s.kbdPrev := rfl
@[simp] theorem raise_fail (c : FailCode) : (s.raise c).fail = c := rfl
@[simp] theorem raise_mem (c : FailCode) : (s.raise c).mem = s.mem := rfl
@[simp] theorem raise_fb (c : FailCode) : (s.raise c).fb = s.fb := rfl
@[simp] theorem raise_frameUpdated (c : FailCode) : (s.raise c).frameUpdated = s.frameUpdated := rfl
@[simp] theorem raise_invalidated (c : FailCode) : (s.raise c).invalidated = s.invalidated := rfl
@[simp] theorem raise_keypad (c : FailCode) : (s.raise c).keypad = s.keypad := rfl
@[simp] theorem raise_random (c : FailCode) : (s.raise c).random = s.random := rfl
@[simp] theorem raise_freeDraws (c : FailCode) : (s.raise c).freeDraws = s.freeDraws := rfl
@[simp] theorem raise_lastCost (c : FailCode) : (s.raise c).lastCost = s.lastCost := rfl
@[simp] theorem raise_reg (c : FailCode) (r : RegIx) : (s.raise c).reg r = s.reg r := rfl
@[simp] theorem raise_byte (c : FailCode) (k : Nat) : (s.raise c).byte k = s.byte k := rfl
@[simp] theorem raise_pixel (c : FailCode) (p q' : Nat) : (s.raise c).pixel p q' = s.pixel p q' := rfl
@[simp] theorem raise_dataAddr (c : FailCode) (k : Nat) : (s.raise c).dataAddr k = s.dataAddr k := rfl

/-! ## setFlag -/

@[simp] theorem setFlag_cfg (c : Bool) : (s.setFlag c).cfg = s.cfg := rfl
@[simp] theorem setFlag_wasReset (c : Bool) : (s.setFlag c).wasReset = s.wasReset := rfl
@[simp] theorem setFlag_v (c : Bool) : (s.setFlag c).v = s.v.set vf.val (flagByte c) := rfl
@[simp] theorem setFlag_pc (c : Bool) : (s.setFlag c).pc = s.pc := rfl
@[simp] theorem setFlag_i (c : Bool) : (s.setFlag c).i = s.i := rfl
@[simp] theorem setFlag_sp (c : Bool) : (s.setFlag c).sp = s.sp := rfl
@[simp] theorem setFlag_stack (c : Bool) : (s.setFlag c).stack = s.stack := rfl
@[simp] theorem setFlag_delay (c : Bool) : (s.setFlag c).delay = s.delay := rfl
@[simp] theorem setFlag_sound (c : Bool) : (s.setFlag c).sound = s.sound := rfl
@[simp] theorem setFlag_cyc (c : Bool) : (s.setFlag c).cyc = s.cyc := rfl
@[simp] theorem setFlag_halt (c : Bool) : (s.setFlag c).halt = s.halt := rfl
@[simp] theorem setFlag_kbd (c : Bool) : (s.setFlag c).kbd = s.kbd := rfl
@[simp] theorem setFlag_kbdPrev (c : Bool) : (s.setFlag c).kbdPrev = s.kbdPrev := rfl
@[simp] theorem setFlag_fail (c : Bool) : (s.setFlag c).fail = s.fail := rfl
@[simp] theorem setFlag_mem (c : Bool) : (s.setFlag c).mem = s.mem := rfl
@[simp] theorem setFlag_fb (c : Bool) : (s.setFlag c).fb = s.fb := rfl
@[simp] theorem setFlag_frameUpdated (c : Bool) : (s.setFlag c).frameUpdated = s.frameUpdated := rfl
@[simp] theorem setFlag_invalidated (c : Bool) : (s.setFlag c).invalidated = s.invalidated := rfl
@[simp] theorem setFlag_keypad (c : Bool) : (s.setFlag c).keypad = s.keypad := rfl
@[simp] theorem setFlag_random (c : Bool) : (s.setFlag c).random = s.random := rfl
@[simp] theorem setFlag_freeDraws (c : Bool) : (s.setFlag c).freeDraws = s.freeDraws := rfl
@[simp] theorem setFlag_lastCost (c : Bool) : (s.setFlag c).lastCost = s.lastCost := rfl
@[simp] theorem setFlag_byte (c : Bool) (k : Nat) : (s.setFlag c).byte k = s.byte k := rfl
@[simp] theorem setFlag_pixel (c : Bool) (p q' : Nat) : (s.setFlag c).pixel p q' = s.pixel p q' := rfl
@[simp] theorem setFlag_dataAddr (c : Bool) (k : Nat) : (s.setFlag c).dataAddr k = s.dataAddr k := rfl

/-! ## setRegFlag -/

@[simp] theorem setRegFlag_cfg (x : RegIx) (b : Byte) (c : Bool) : (s.setRegFlag x b c).cfg = s.cfg := rfl
@[simp] theorem setRegFlag_wasReset (x : RegIx) (b : Byte) (c : Bool) : (s.setRegFlag x b c).wasReset = s.wasReset := rfl
@[simp] theorem setRegFlag_pc (x : RegIx) (b : Byte) (c : Bool) : (s.setRegFlag x b c).pc = s.pc := rfl
@[simp] theorem setRegFlag_i (x : RegIx) (b : Byte) (c : Bool) : (s.setRegFlag x b c).i = s.i := rfl
@[simp] theorem setRegFlag_sp (x : RegIx) (b : Byte) (c : Bool) : (s.setRegFlag x b c).sp = s.sp := rfl
@[simp] theorem setRegFlag_stack (x : RegIx) (b : Byte) (c : Bool) : (s.setRegFlag x b c).stack = s.stack := rfl
@[simp] theorem setRegFlag_delay (x : RegIx) (b : Byte) (c : Bool) : (s.setRegFlag x b c).delay = s.delay := rfl
@[simp] theorem setRegFlag_sound (x : RegIx) (b : Byte) (c : Bool) : (s.setRegFlag x b c).sound = s.sound := rfl
@[simp] theorem setRegFlag_cyc (x : RegIx) (b : Byte) (c : Bool) : (s.setRegFlag x b c).cyc = s.cyc := rfl
@[simp] theorem setRegFlag_halt (x : RegIx) (b : Byte) (c : Bool) : (s.setRegFlag x b c).halt = s.halt := rfl
@[simp] theorem setRegFlag_kbd (x : RegIx) (b : Byte) (c : Bool) : (s.setRegFlag x b c).kbd = s.kbd := rfl
@[simp] theorem setRegFlag_kbdPrev (x : RegIx) (b : Byte) (c : Bool) : (s.setRegFlag x b c).kbdPrev = s.kbdPrev := rfl
@[simp] theorem setRegFlag_fail (x : RegIx) (b : Byte) (c : Bool) : (s.setRegFlag x b c).fail = s.fail := rfl
@[simp] theorem setRegFlag_mem (x : RegIx) (b : Byte) (c : Bool) : (s.setRegFlag x b c).mem = s.mem := rfl
@[simp] theorem setRegFlag_fb (x : RegIx) (b : Byte) (c : Bool) : (s.setRegFlag x b c).fb = s.fb := rfl
@[simp] theorem setRegFlag_frameUpdated (x : RegIx) (b : Byte) (c : Bool) : (s.setRegFlag x b c).frameUpdated = s.frameUpdated := rfl
@[simp] theorem setRegFlag_invalidated (x : RegIx) (b : Byte) (c : Bool) : (s.setRegFlag x b c).invalidated = s.invalidated := rfl
@[simp] theorem setRegFlag_keypad (x : RegIx) (b : Byte) (c : Bool) : (s.setRegFlag x b c).keypad = s.keypad := rfl
@[simp] theorem setRegFlag_random (x : RegIx) (b : Byte) (c : Bool) : (s.setRegFlag x b c).random = s.random := rfl
@[simp] theorem setRegFlag_freeDraws (x : RegIx) (b : Byte) (c : Bool) : (s.setRegFlag x b c).freeDraws = s.freeDraws := rfl
@[simp] theorem setRegFlag_lastCost (x : RegIx) (b : Byte) (c : Bool) : (s.setRegFlag x b c).lastCost = s.lastCost := rfl
@[simp] theorem setRegFlag_byte (x : RegIx) (b : Byte) (c : Bool) (k : Nat) : (s.setRegFlag x b c).byte k = s.byte k := rfl
@[simp] theorem setRegFlag_pixel (x : RegIx) (b : Byte) (c : Bool) (p q' : Nat) : (s.setRegFlag x b c).pixel p q' = s.pixel p q' := rfl
@[simp] theorem setRegFlag_dataAddr (x : RegIx) (b : Byte) (c : Bool) (k : Nat) : (s.setRegFlag x b c).dataAddr k = s.dataAddr k := rfl

/-! ## loadRegsFrom -/

@[simp] theorem loadRegsFrom_cfg (a : Nat) (x : RegIx) : (s.loadRegsFrom a x).cfg = s.cfg := by simp only [State.loadRegsFrom]
@[simp] theorem loadRegsFrom_wasReset (a : Nat) (x : RegIx) : (s.loadRegsFrom a x).wasReset = s.wasReset := by simp only [State.loadRegsFrom]
@[simp] theorem loadRegsFrom_pc (a : Nat) (x : RegIx) : (s.loadRegsFrom a x).pc = s.pc := by simp only [State.loadRegsFrom]
@[simp] theorem loadRegsFrom_i (a : Nat) (x : RegIx) : (s.loadRegsFrom a x).i = s.i := by simp only [State.loadRegsFrom]
@[simp] theorem loadRegsFrom_sp (a : Nat) (x : RegIx) : (s.loadRegsFrom a x).sp = s.sp := by simp only [State.loadRegsFrom]
@[simp] theorem loadRegsFrom_stack (a : Nat) (x : RegIx) : (s.loadRegsFrom a x).stack = s.stack := by simp only [State.loadRegsFrom]
@[simp] theorem loadRegsFrom_delay (a : Nat) (x : RegIx) : (s.loadRegsFrom a x).delay = s.delay := by simp only [State.loadRegsFrom]
@[simp] theorem loadRegsFrom_sound (a : Nat) (x : RegIx) : (s.loadRegsFrom a x).sound = s.sound := by simp only [State.loadRegsFrom]
@[simp] theorem loadRegsFrom_cyc (a : Nat) (x : RegIx) : (s.loadRegsFrom a x).cyc = s.cyc := by simp only [State.loadRegsFrom]
@[simp] theorem loadRegsFrom_halt (a : Nat) (x : RegIx) : (s.loadRegsFrom a x).halt = s.halt := by simp only [State.loadRegsFrom]
@[simp] theorem loadRegsFrom_kbd (a : Nat) (x : RegIx) : (s.loadRegsFrom a x).kbd = s.kbd := by simp only [State.loadRegsFrom]
@[simp] theorem loadRegsFrom_kbdPrev (a : Nat) (x : RegIx) : (s.loadRegsFrom a x).kbdPrev = s.kbdPrev := by simp only [State.loadRegsFrom]
@[simp] theorem loadRegsFrom_fail (a : Nat) (x : RegIx) : (s.loadRegsFrom a x).fail = s.fail := by simp only [State.loadRegsFrom]
@[simp] theorem loadRegsFrom_mem (a : Nat) (x : RegIx) : (s.loadRegsFrom a x).mem = s.mem := by simp only [State.loadRegsFrom]
@[simp] theorem loadRegsFrom_fb (a : Nat) (x : RegIx) : (s.loadRegsFrom a x).fb = s.fb := by simp only [State.loadRegsFrom]
@[simp] theorem loadRegsFrom_frameUpdated (a : Nat) (x : RegIx) : (s.loadRegsFrom a x).frameUpdated = s.frameUpdated := by simp only [State.loadRegsFrom]
@[simp] theorem loadRegsFrom_invalidated (a : Nat) (x : RegIx) : (s.loadRegsFrom a x).invalidated = s.invalidated := by simp only [State.loadRegsFrom]
@[simp] theorem loadRegsFrom_keypad (a : Nat) (x : RegIx) : (s.loadRegsFrom a x).keypad = s.keypad := by simp only [State.loadRegsFrom]
@[simp] theorem loadRegsFrom_random (a : Nat) (x : RegIx) : (s.loadRegsFrom a x).random = s.random := by simp only [State.loadRegsFrom]
@[simp] theorem loadRegsFrom_freeDraws (a : Nat) (x : RegIx) : (s.loadRegsFrom a x).freeDraws = s.freeDraws := by simp only [State.loadRegsFrom]
@[simp] theorem loadRegsFrom_lastCost (a : Nat) (x : RegIx) : (s.loadRegsFrom a x).lastCost = s.lastCost := by simp only [State.loadRegsFrom]
@[simp] theorem loadRegsFrom_byte (a : Nat) (x : RegIx) (k : Nat) : (s.loadRegsFrom a x).byte k = s.byte k := by
  simp only [State.byte, loadRegsFrom_cfg, loadRegsFrom_mem]
@[simp] theorem loadRegsFrom_pixel (a : Nat) (x : RegIx) (p q' : Nat) : (s.loadRegsFrom a x).pixel p q' = s.pixel p q' := by
  simp only [State.pixel, loadRegsFrom_fb]
@[simp] theorem loadRegsFrom_dataAddr (a : Nat) (x : RegIx) (k : Nat) : (s.loadRegsFrom a x).dataAddr k = s.dataAddr k := by
  simp only [State.dataAddr, loadRegsFrom_i]

/-! ## drawRnd -/

@[simp] theorem drawRnd_cfg : s.drawRnd.cfg = s.cfg := rfl
@[simp] theorem drawRnd_wasReset : s.drawRnd.wasReset = s.wasReset := rfl
@[simp] theorem drawRnd_v : s.drawRnd.v = s.v := rfl
@[simp] theorem drawRnd_pc : s.drawRnd.pc = s.pc := rfl
@[simp] theorem drawRnd_i : s.drawRnd.i = s.i := rfl
@[simp] theorem drawRnd_sp : s.drawRnd.sp = s.sp := rfl
@[simp] theorem drawRnd_stack : s.drawRnd.stack = s.stack := rfl
@[simp] theorem drawRnd_delay : s.drawRnd.delay = s.delay := rfl
@[simp] theorem drawRnd_sound : s.drawRnd.sound = s.sound := rfl
@[simp] theorem drawRnd_cyc : s.drawRnd.cyc = s.cyc := rfl
@[simp] theorem drawRnd_halt : s.drawRnd.halt = s.halt := rfl
@[simp] theorem drawRnd_kbd : s.drawRnd.kbd = s.kbd := rfl
@[simp] theorem drawRnd_kbdPrev : s.drawRnd.kbdPrev = s.kbdPrev := rfl
@[simp] theorem drawRnd_fail : s.drawRnd.fail = s.fail := rfl
@[simp] theorem drawRnd_mem : s.drawRnd.mem = s.mem := rfl
@[simp] theorem drawRnd_fb : s.drawRnd.fb = s.fb := rfl
@[simp] theorem drawRnd_frameUpdated : s.drawRnd.frameUpdated = s.frameUpdated := rfl
@[simp] theorem drawRnd_invalidated : s.drawRnd.invalidated = s.invalidated := rfl
@[simp] theorem drawRnd_keypad : s.drawRnd.keypad = s.keypad := rfl
@[simp] theorem drawRnd_random : s.drawRnd.random = s.random.tail := rfl
@[simp] theorem drawRnd_freeDraws : s.drawRnd.freeDraws = if s.random.isEmpty then s.freeDraws + 1 else s.freeDraws := rfl
@[simp] theorem drawRnd_lastCost : s.drawRnd.lastCost = s.lastCost := rfl
@[simp] theorem drawRnd_reg (r : RegIx) : s.drawRnd.reg r = s.reg r := rfl
@[simp] theorem drawRnd_byte (k : Nat) : s.drawRnd.byte k = s.byte k := rfl
@[simp] theorem drawRnd_pixel (p q' : Nat) : s.drawRnd.pixel p q' = s.pixel p q' := rfl
@[simp] theorem drawRnd_dataAddr (k : Nat) : s.drawRnd.dataAddr k = s.dataAddr k := rfl

/-! ## sampleKeys -/

@[simp] theorem sampleKeys_cfg : s.sampleKeys.cfg = s.cfg := rfl
@[simp] theorem sampleKeys_wasReset : s.sampleKeys.wasReset = s.wasReset := rfl
@[simp] theorem sampleKeys_v : s.sampleKeys.v = s.v := rfl
@[simp] theorem sampleKeys_pc : s.sampleKeys.pc = s.pc := rfl
@[simp] theorem sampleKeys_i : s.sampleKeys.i = s.i := rfl
@[simp] theorem sampleKeys_sp : s.sampleKeys.sp = s.sp := rfl
@[simp] theorem sampleKeys_stack : s.sampleKeys.stack = s.stack := rfl
@[simp] theorem sampleKeys_delay : s.sampleKeys.delay = s.delay := rfl
@[simp] theorem sampleKeys_sound : s.sampleKeys.sound = s.sound := rfl
@[simp] theorem sampleKeys_cyc : s.sampleKeys.cyc = s.cyc := rfl
@[simp] theorem sampleKeys_halt : s.sampleKeys.halt = s.halt := rfl
@[simp] theorem sampleKeys_kbd : s.sampleKeys.kbd = s.keypad.sample := rfl
@[simp] theorem sampleKeys_kbdPrev : s.sampleKeys.kbdPrev = s.kbdPrev := rfl
@[simp] theorem sampleKeys_fail : s.sampleKeys.fail = s.fail := rfl
@[simp] theorem sampleKeys_mem : s.sampleKeys.mem = s.mem := rfl
@[simp] theorem sampleKeys_fb : s.sampleKeys.fb = s.fb := rfl
@[simp] theorem sampleKeys_frameUpdated : s.sampleKeys.frameUpdated = s.frameUpdated := rfl
@[simp] theorem sampleKeys_invalidated : s.sampleKeys.invalidated = s.invalidated := rfl
@[simp] theorem sampleKeys_keypad : s.sampleKeys.keypad = s.keypad.advance := rfl
@[simp] theorem sampleKeys_random : s.sampleKeys.random = s.random := rfl
@[simp] theorem sampleKeys_freeDraws : s.sampleKeys.freeDraws = s.freeDraws := rfl
@[simp] theorem sampleKeys_lastCost : s.sampleKeys.lastCost = s.lastCost := rfl
@[simp] theorem sampleKeys_reg (r : RegIx) : s.sampleKeys.reg r = s.reg r := rfl
@[simp] theorem sampleKeys_byte (k : Nat) : s.sampleKeys.byte k = s.byte k := rfl
@[simp] theorem sampleKeys_pixel (p q' : Nat) : s.sampleKeys.pixel p q' = s.pixel p q' := rfl
@[simp] theorem sampleKeys_dataAddr (k : Nat) : s.sampleKeys.dataAddr k = s.dataAddr k := rfl

/-! ## endCycle -/

@[simp] theorem endCycle_cfg (c : Nat) : (s.endCycle c).cfg = s.cfg := rfl
@[simp] theorem endCycle_wasReset (c : Nat) : (s.endCycle c).wasReset = s.wasReset := rfl
@[simp] theorem endCycle_v (c : Nat) : (s.endCycle c).v = s.v := rfl
@[simp] theorem endCycle_pc (c : Nat) : (s.endCycle c).pc = s.pc := rfl
@[simp] theorem endCycle_i (c : Nat) : (s.endCycle c).i = s.i := rfl
@[simp] theorem endCycle_sp (c : Nat) : (s.endCycle c).sp = s.sp := rfl
@[simp] theorem endCycle_stack (c : Nat) : (s.endCycle c).stack = s.stack := rfl
@[simp] theorem endCycle_delay (c : Nat) : (s.endCycle c).delay = s.delay.refresh (s.cyc + c) s.cfg.timerPeriod := rfl
@[simp] theorem endCycle_sound (c : Nat) : (s.endCycle c).sound = s.sound.refresh (s.cyc + c) s.cfg.timerPeriod := rfl
@[simp] theorem endCycle_cyc (c : Nat) : (s.endCycle c).cyc = s.cyc + c := rfl
@[simp] theorem endCycle_halt (c : Nat) : (s.endCycle c).halt = s.halt := rfl
@[simp] theorem endCycle_kbd (c : Nat) : (s.endCycle c).kbd = s.kbd := rfl
@[simp] theorem endCycle_kbdPrev (c : Nat) : (s.endCycle c).kbdPrev = s.kbd := rfl
@[simp] theorem endCycle_fail (c : Nat) : (s.endCycle c).fail = s.fail := rfl
@[simp] theorem endCycle_mem (c : Nat) : (s.endCycle c).mem = s.mem := rfl
@[simp] theorem endCycle_fb (c : Nat) : (s.endCycle c).fb = s.fb := rfl
@[simp] theorem endCycle_frameUpdated (c : Nat) : (s.endCycle c).frameUpdated = s.frameUpdated := rfl
@[simp] theorem endCycle_invalidated (c : Nat) : (s.endCycle c).invalidated = s.invalidated := rfl
@[simp] theorem endCycle_keypad (c : Nat) : (s.endCycle c).keypad = s.keypad := rfl
@[simp] theorem endCycle_random (c : Nat) : (s.endCycle c).random = s.random := rfl
@[simp] theorem endCycle_freeDraws (c : Nat) : (s.endCycle c).freeDraws = s.freeDraws := rfl
@[simp] theorem endCycle_lastCost (c : Nat) : (s.endCycle c).lastCost = c := rfl
@[simp] theorem endCycle_reg (c : Nat) (r : RegIx) : (s.endCycle c).reg r = s.reg r := rfl
@[simp] theorem endCycle_byte (c : Nat) (k : Nat) : (s.endCycle c).byte k = s.byte k := rfl
@[simp] theorem endCycle_pixel (c : Nat) (p q' : Nat) : (s.endCycle c).pixel p q' = s.pixel p q' := rfl
@[simp] theorem endCycle_dataAddr (c : Nat) (k : Nat) : (s.endCycle c).dataAddr k = s.dataAddr k := rfl

/-! ## endFaulted -/

@[simp] theorem endFaulted_cfg : s.endFaulted.cfg = s.cfg := rfl
@[simp] theorem endFaulted_wasReset : s.endFaulted.wasReset = s.wasReset := rfl
@[simp] theorem endFaulted_v : s.endFaulted.v = s.v := rfl
@[simp] theorem endFaulted_pc : s.endFaulted.pc = s.pc := rfl
@[simp] theorem endFaulted_i : s.endFaulted.i = s.i := rfl
@[simp] theorem endFaulted_sp : s.endFaulted.sp = s.sp := rfl
@[simp] theorem endFaulted_stack : s.endFaulted.stack = s.stack := rfl
@[simp] theorem endFaulted_delay : s.endFaulted.delay = s.delay := rfl
@[simp] theorem endFaulted_sound : s.endFaulted.sound = s.sound := rfl
@[simp] theorem endFaulted_cyc : s.endFaulted.cyc = s.cyc := rfl
@[simp] theorem endFaulted_halt : s.endFaulted.halt = s.halt := rfl
@[simp] theorem endFaulted_kbd : s.endFaulted.kbd = s.kbd := rfl
@[simp] theorem endFaulted_kbdPrev : s.endFaulted.kbdPrev = s.kbdPrev := rfl
@[simp] theorem endFaulted_fail : s.endFaulted.fail = s.fail := rfl
@[simp] theorem endFaulted_mem : s.endFaulted.mem = s.mem := rfl
@[simp] theorem endFaulted_fb : s.endFaulted.fb = s.fb := rfl
@[simp] theorem endFaulted_frameUpdated : s.endFaulted.frameUpdated = s.frameUpdated := rfl
@[simp] theorem endFaulted_invalidated : s.endFaulted.invalidated = s.invalidated := rfl
@[simp] theorem endFaulted_keypad : s.endFaulted.keypad = s.keypad := rfl
@[simp] theorem endFaulted_random : s.endFaulted.random = s.random := rfl
@[simp] theorem endFaulted_freeDraws : s.endFaulted.freeDraws = s.freeDraws + 1 := rfl
@[simp] theorem endFaulted_lastCost : s.endFaulted.lastCost = Config.freeCost s.freeDraws := rfl
@[simp] theorem endFaulted_reg (r : RegIx) : s.endFaulted.reg r = s.reg r := rfl
@[simp] theorem endFaulted_byte (k : Nat) : s.endFaulted.byte k = s.byte k := rfl
@[simp] theorem endFaulted_pixel (p q' : Nat) : s.endFaulted.pixel p q' = s.pixel p q' := rfl
@[simp] theorem endFaulted_dataAddr (k : Nat) : s.endFaulted.dataAddr k = s.dataAddr k := rfl

/-! ## validateDisplay -/

@[simp] theorem validateDisplay_cfg : s.validateDisplay.cfg = s.cfg := rfl
@[simp] theorem validateDisplay_wasReset : s.validateDisplay.wasReset = s.wasReset := rfl
@[simp] theorem validateDisplay_v : s.validateDisplay.v = s.v := rfl
@[simp] theorem validateDisplay_pc : s.validateDisplay.pc = s.pc := rfl
@[simp] theorem validateDisplay_i : s.validateDisplay.i = s.i := rfl
@[simp] theorem validateDisplay_sp : s.validateDisplay.sp = s.sp := rfl
@[simp] theorem validateDisplay_stack : s.validateDisplay.stack = s.stack := rfl
@[simp] theorem validateDisplay_delay : s.validateDisplay.delay = s.delay := rfl
@[simp] theorem validateDisplay_sound : s.validateDisplay.sound = s.sound := rfl
@[simp] theorem validateDisplay_cyc : s.validateDisplay.cyc = s.cyc := rfl
@[simp] theorem validateDisplay_halt : s.validateDisplay.halt = s.halt := rfl
@[simp] theorem validateDisplay_kbd : s.validateDisplay.kbd = s.kbd := rfl
@[simp] theorem validateDisplay_kbdPrev : s.validateDisplay.kbdPrev = s.kbdPrev := rfl
@[simp] theorem validateDisplay_fail : s.validateDisplay.fail = s.fail := rfl
@[simp] theorem validateDisplay_mem : s.validateDisplay.mem = s.mem := rfl
@[simp] theorem validateDisplay_fb : s.validateDisplay.fb = s.fb := rfl
@[simp] theorem validateDisplay_frameUpdated : s.validateDisplay.frameUpdated = false := rfl
@[simp] theorem validateDisplay_invalidated : s.validateDisplay.invalidated = s.invalidated := rfl
@[simp] theorem validateDisplay_keypad : s.validateDisplay.keypad = s.keypad := rfl
@[simp] theorem validateDisplay_random : s.validateDisplay.random = s.random := rfl
@[simp] theorem validateDisplay_freeDraws : s.validateDisplay.freeDraws = s.freeDraws := rfl
@[simp] theorem validateDisplay_lastCost : s.validateDisplay.lastCost = s.lastCost := rfl
@[simp] theorem validateDisplay_reg (r : RegIx) : s.validateDisplay.reg r = s.reg r := rfl
@[simp] theorem validateDisplay_byte (k : Nat) : s.validateDisplay.byte k = s.byte k := rfl
@[simp] theorem validateDisplay_pixel (p q' : Nat) : s.validateDisplay.pixel p q' = s.pixel p q' := rfl
@[simp] theorem validateDisplay_dataAddr (k : Nat) : s.validateDisplay.dataAddr k = s.dataAddr k := rfl

end Sys2Proof.Machine
end

