-- ==== Sys2Proof/Laws/Memory.lean ====
section
/-! SUPPORT. The laws of memory: read after write, and that every operation keeps the canonical form. -/

namespace Sys2Proof.Machine

variable {cfg : Config} {m : Memory}

/-! ## One cell -/

/-- Addresses strictly rise along the list. -/
abbrev Memory.Rising (m : Memory) : Prop := m.Pairwise fun c d => c.1 < d.1

theorem Memory.lookup_eq_none {a : Nat} (h : ∀ c ∈ m, c.1 ≠ a) : m.lookup a = none := by
  induction m with
  | nil => rfl
  | cons c m ih =>
    rw [Memory.lookup, if_neg (h c (by simp))]
    exact ih fun d hd => h d (by simp [hd])

theorem Memory.lookup_insert (a k : Nat) (b : Byte) :
    (m.insert a b).lookup k = if k = a then some b else m.lookup k := by
  induction m with
  | nil => simp [Memory.insert, Memory.lookup, eq_comm]
  | cons c m ih => grind [Memory.insert, Memory.lookup]

theorem Memory.lookup_erase (hm : m.Rising) (a k : Nat) :
    (m.erase a).lookup k = if k = a then none else m.lookup k := by
  induction m with
  | nil => simp [Memory.erase, Memory.lookup]
  | cons c m ih =>
    obtain ⟨hc, hm⟩ := List.pairwise_cons.mp hm
    have hnone : c.1 = a → Memory.lookup a m = none := fun h =>
      Memory.lookup_eq_none fun d hd => by have := hc d hd; omega
    grind [Memory.erase, Memory.lookup]

theorem Memory.lookup_erase_ne {a k : Nat} (h : k ≠ a) : (m.erase a).lookup k = m.lookup k := by
  induction m with
  | nil => rfl
  | cons c m ih => grind [Memory.erase, Memory.lookup]

/-! ## Read after write -/

/-- Reading another address gives what it gave, in every state. -/
theorem Memory.read_write_ne {a k : Nat} (b : Byte) (h : k ≠ a) :
    Memory.read cfg (Memory.write cfg m a b) k = Memory.read cfg m k := by
  unfold Memory.read Memory.write
  split
  · rw [Memory.lookup_erase_ne h]
  · rw [Memory.lookup_insert, if_neg h]

/-- Reading the written address gives the byte written. -/
theorem Memory.read_write (hm : m.Rising) (a k : Nat) (b : Byte) :
    Memory.read cfg (Memory.write cfg m a b) k = if k = a then b else Memory.read cfg m k := by
  split
  · next h =>
    subst h
    unfold Memory.read Memory.write
    split
    · next hb => rw [Memory.lookup_erase hm, if_pos rfl, hb]; rfl
    · rw [Memory.lookup_insert, if_pos rfl]; rfl
  · next h => exact Memory.read_write_ne b h

/-! ## The canonical form -/

theorem Memory.mem_insert {a : Nat} {b : Byte} {c : Host.Cell} (h : c ∈ m.insert a b) :
    c = (a, b) ∨ c ∈ m := by
  induction m with
  | nil => simpa [Memory.insert] using h
  | cons d m ih => grind [Memory.insert]

theorem Memory.mem_of_mem_erase {a : Nat} {c : Host.Cell} (h : c ∈ m.erase a) : c ∈ m := by
  induction m with
  | nil => exact h
  | cons d m ih => grind [Memory.erase]

theorem Memory.rising_insert (hm : m.Rising) (a : Nat) (b : Byte) : (m.insert a b).Rising := by
  induction m with
  | nil => simp [Memory.insert]
  | cons c m ih =>
    obtain ⟨hc, hm⟩ := List.pairwise_cons.mp hm
    unfold Memory.insert
    split_ifs with h1 h2
    · refine List.pairwise_cons.mpr ⟨fun d hd => ?_, List.pairwise_cons.mpr ⟨hc, hm⟩⟩
      rcases List.mem_cons.mp hd with rfl | hd
      · exact h1
      · exact h1.trans (hc d hd)
    · exact List.pairwise_cons.mpr ⟨fun d hd => h2 ▸ hc d hd, hm⟩
    · refine List.pairwise_cons.mpr ⟨fun d hd => ?_, ih hm⟩
      rcases Memory.mem_insert hd with rfl | hd
      · exact lt_of_le_of_ne (not_lt.mp h1) h2
      · exact hc d hd

theorem Memory.rising_erase (hm : m.Rising) (a : Nat) : (m.erase a).Rising := by
  induction m with
  | nil => exact hm
  | cons c m ih =>
    obtain ⟨hc, hm⟩ := List.pairwise_cons.mp hm
    unfold Memory.erase
    split_ifs
    · exact hm
    · exact List.pairwise_cons.mpr ⟨fun d hd => hc d (Memory.mem_of_mem_erase hd), ih hm⟩

/-- Every write keeps the canonical form. -/
theorem Memory.wf_write (hm : Memory.wf cfg m) (a : Nat) (b : Byte) :
    Memory.wf cfg (Memory.write cfg m a b) := by
  unfold Memory.write
  split
  · exact ⟨Memory.rising_erase hm.1 a, fun c hc => hm.2 c (Memory.mem_of_mem_erase hc)⟩
  · next hb =>
    refine ⟨Memory.rising_insert hm.1 a b, fun c hc => ?_⟩
    rcases Memory.mem_insert hc with rfl | hc
    · exact hb
    · exact hm.2 c hc

/-- A write lists no address but the one written. -/
theorem Memory.mem_write {a : Nat} {b : Byte} {c : Host.Cell} (h : c ∈ Memory.write cfg m a b) :
    c.1 = a ∨ c ∈ m := by
  unfold Memory.write at h
  split at h
  · exact .inr (Memory.mem_of_mem_erase h)
  · rcases Memory.mem_insert h with rfl | h
    · exact .inl rfl
    · exact .inr h

/-! ## The state's memory -/

theorem byte_setByte_ne (s : State) {a k : Nat} (b : Byte) (h : k ≠ a) :
    (s.setByte a b).byte k = s.byte k := Memory.read_write_ne b h

theorem byte_setByte (s : State) (hm : Memory.wf s.cfg s.mem) (a k : Nat) (b : Byte) :
    (s.setByte a b).byte k = if k = a then b else s.byte k := Memory.read_write hm.1 a k b

/-- What storing a run of bytes leaves unchanged: everything but memory. -/
theorem writeBytes_eq (s : State) (a : Nat) (bs : List Byte) :
    s.writeBytes a bs = { s with mem := (s.writeBytes a bs).mem } := by
  induction bs generalizing s a with
  | nil => rfl
  | cons b bs ih => simp only [State.writeBytes]; rw [ih]; rfl

/-- Storing a run of bytes keeps the canonical form. -/
theorem writeBytes_wf (s : State) (a : Nat) (bs : List Byte) (hm : Memory.wf s.cfg s.mem) :
    Memory.wf s.cfg (s.writeBytes a bs).mem := by
  induction bs generalizing s a with
  | nil => exact hm
  | cons b bs ih => exact ih (s.setByte a b) (a + 1) (Memory.wf_write hm a b)

/-- Storing a run of bytes lists no address outside the run. -/
theorem mem_writeBytes (s : State) (a : Nat) (bs : List Byte) {c : Host.Cell}
    (h : c ∈ (s.writeBytes a bs).mem) : (a ≤ c.1 ∧ c.1 < a + bs.length) ∨ c ∈ s.mem := by
  induction bs generalizing s a with
  | nil => exact .inr h
  | cons b bs ih =>
    rcases ih (s.setByte a b) (a + 1) h with h | h
    · left; simp only [List.length_cons]; omega
    · rcases Memory.mem_write h with h | h
      · left; simp only [List.length_cons]; omega
      · exact .inr h

/-- A byte outside a stored run reads as before, in every state. -/
theorem byte_writeBytes_outside (s : State) (a : Nat) (bs : List Byte) {k : Nat}
    (h : ¬ (a ≤ k ∧ k < a + bs.length)) : (s.writeBytes a bs).byte k = s.byte k := by
  induction bs generalizing s a with
  | nil => rfl
  | cons b bs ih =>
    simp only [List.length_cons] at h
    rw [State.writeBytes, ih (s.setByte a b) (a + 1) (by omega), byte_setByte_ne s b (by omega)]

/-- A byte of a stored run reads as stored. -/
theorem byte_writeBytes_inside (s : State) (a : Nat) (bs : List Byte) (hm : Memory.wf s.cfg s.mem)
    {k : Nat} (h : k < bs.length) : (s.writeBytes a bs).byte (a + k) = bs[k] := by
  induction bs generalizing s a k with
  | nil => simp at h
  | cons b bs ih =>
    cases k with
    | zero =>
      rw [State.writeBytes, byte_writeBytes_outside _ _ _ (by omega)]
      simp [byte_setByte s hm]
    | succ k =>
      have := ih (s.setByte a b) (a + 1) (Memory.wf_write hm a b) (by simpa using h)
      rw [State.writeBytes, show a + (k + 1) = a + 1 + k by omega, this]
      simp

end Sys2Proof.Machine
end

