-- ==== Sys2Proof/Laws/Ops.lean ====
section
/-! SUPPORT. What each shared operation does, said once: registers and flags, block loads, the range check, the
stack, timers, operand forms. -/

namespace Sys2Proof.Machine

variable (s : State)

/-! ## Registers and flags -/

/-- Reading a register after a register write. -/
theorem reg_setReg (x r : RegIx) (b : Byte) : (s.setReg x b).reg r = if r = x then b else s.reg r := by
  simp only [State.reg, State.setReg, Vector.getElem_set, Fin.ext_iff, eq_comm]

@[simp] theorem reg_setReg_self (x : RegIx) (b : Byte) : (s.setReg x b).reg x = b := by simp [reg_setReg]

theorem reg_setReg_ne {x r : RegIx} (b : Byte) (h : r ≠ x) : (s.setReg x b).reg r = s.reg r := by
  simp [reg_setReg, h]

/-- The flag is in VF after a flag-producing instruction, whatever its destination (R133). -/
theorem reg_setRegFlag_vf (x : RegIx) (b : Byte) (c : Bool) : (s.setRegFlag x b c).reg vf = flagByte c := by
  simp [State.setRegFlag, State.setFlag]

/-- Any other register after the data write and the flag write. -/
theorem reg_setRegFlag_ne {x r : RegIx} (b : Byte) (c : Bool) (h : r ≠ vf) :
    (s.setRegFlag x b c).reg r = if r = x then b else s.reg r := by
  simp [State.setRegFlag, State.setFlag, reg_setReg, h]

theorem reg_setFlag (r : RegIx) (c : Bool) : (s.setFlag c).reg r = if r = vf then flagByte c else s.reg r :=
  reg_setReg s vf r _

/-- A block load fills V[0] ... V[x] and no other register. -/
theorem reg_loadRegsFrom (a : Nat) (x r : RegIx) :
    (s.loadRegsFrom a x).reg r = if r ≤ x then s.byte (a + r.val) else s.reg r := by
  simp [State.loadRegsFrom, State.reg]

/-- The i-th byte a block store takes is V[i]. -/
theorem regsThrough_length (x : RegIx) : (s.regsThrough x).length = x.val + 1 := by
  simp only [State.regsThrough, List.length_take, Vector.length_toList]
  omega

theorem regsThrough_getElem (x r : RegIx) (h : r.val < (s.regsThrough x).length) :
    (s.regsThrough x)[r.val] = s.reg r := by
  simp [State.regsThrough, State.reg]

/-! ## The range check -/

theorem inRange_iff (a n : Nat) : s.inRange a n = true ↔ a + n - 1 < s.cfg.memSize := by
  simp [State.inRange]

/-! ## Operand forms -/

@[simp] theorem zext16_toNat (nnn : Addr) : (zext16 nnn).toNat = nnn.toNat := by
  have := nnn.isLt
  simp [zext16]
  omega

@[simp] theorem byteToWord_toNat (b : Byte) : (byteToWord b).toNat = b.toNat := by
  have := b.isLt
  simp [byteToWord]
  omega

/-- A key index is refused exactly when the policy is REFUSE and it names no key (R203). -/
theorem keydown_eq_none_iff (b : Byte) :
    s.keydown b = none ↔ s.cfg.keyIndexPolicy = .refuse ∧ 0x10 ≤ b.toNat := by
  unfold State.keydown
  split
  · simp
    omega
  · split <;> simp_all; omega

/-- The least significant set bit of a nonzero mask is set, and every bit below it is clear (R12). -/
theorem lowbit_spec {m : Word} (h : m ≠ 0) :
    lowbit m < 16 ∧ m.getLsbD (lowbit m) = true ∧ ∀ k, k < lowbit m → m.getLsbD k = false := by
  obtain ⟨k, hk⟩ : ∃ k, ((List.range 16).find? fun k => m.getLsbD k) = some k := by
    cases hf : (List.range 16).find? fun k => m.getLsbD k with
    | some k => exact ⟨k, rfl⟩
    | none =>
      exact absurd (BitVec.eq_of_getLsbD_eq fun j hj => by
        have := List.find?_eq_none.mp hf j (List.mem_range.mpr hj)
        simpa using this) h
  have hlow : lowbit m = k := by simp [lowbit, hk]
  obtain ⟨hbit, h16, hbelow⟩ := List.find?_range_eq_some.mp hk
  refine hlow ▸ ⟨?_, hbit, fun j hj => by simpa using hbelow j hj⟩
  simpa using h16

/-! ## Timers -/

/-- A refresh decrements or does nothing (R213). -/
theorem refresh_cases (t : Timer) (cyc period : Nat) :
    (t.value ≠ 0 ∧ t.deadline ≤ cyc ∧ t.refresh cyc period = ⟨t.value - 1, cyc + period⟩) ∨
    (¬ (t.value ≠ 0 ∧ t.deadline ≤ cyc) ∧ t.refresh cyc period = t) := by
  unfold Timer.refresh
  split
  · next h => exact .inl ⟨h.1, h.2, rfl⟩
  · next h => exact .inr ⟨h, rfl⟩

end Sys2Proof.Machine
end

