-- ==== Sys2Proof/Laws/Display.lean ====
section
/-! SUPPORT. The sprite compositor: what plotting a pixel, a row and a sprite does to every pixel and to the
collision flag, and that the framebuffer keeps its shape. -/

namespace Sys2Proof.Machine

variable {w h : Nat} {fb : Framebuffer}

/-! ## The framebuffer -/

theorem blankPixels_shaped (w h : Nat) : Framebuffer.Shaped w h (blankPixels w h) := by
  refine ⟨by simp [blankPixels], fun row hrow => ?_⟩
  rw [List.eq_of_mem_replicate hrow, List.length_replicate]

@[simp] theorem pixel_blankPixels (w h px py : Nat) : Framebuffer.pixel (blankPixels w h) px py = false := by
  unfold Framebuffer.pixel blankPixels
  by_cases hy : py < h <;> by_cases hx : px < w <;> simp [hy, hx]

theorem flip_shaped (hs : Framebuffer.Shaped w h fb) (x y : Nat) :
    Framebuffer.Shaped w h (fb.flip x y) := by
  refine ⟨by simpa [Framebuffer.flip] using hs.1, fun row hrow => ?_⟩
  obtain ⟨k, hk, rfl⟩ := List.mem_iff_getElem.mp hrow
  have hk' : k < fb.length := by simpa [Framebuffer.flip] using hk
  have := hs.2 fb[k] (List.getElem_mem hk')
  simp only [Framebuffer.flip, List.getElem_modify]
  split <;> simpa using this

/-- Off the screen no pixel is on. -/
theorem pixel_outside (hs : Framebuffer.Shaped w h fb) {px py : Nat} (ho : ¬ (px < w ∧ py < h)) :
    fb.pixel px py = false := by
  unfold Framebuffer.pixel
  by_cases hy : py < fb.length
  · have hrow := hs.2 fb[py] (List.getElem_mem hy)
    have hx : ¬ px < w := fun hx => ho ⟨hx, hs.1 ▸ hy⟩
    simp only [List.getElem?_eq_getElem hy, Option.getD_some]
    rw [List.getElem?_eq_none (by omega), Option.getD_none]
  · simp [List.getElem?_eq_none (not_lt.mp hy)]

/-- Inverting a pixel of the screen changes that pixel and no other. -/
theorem pixel_flip (hs : Framebuffer.Shaped w h fb) {x y : Nat} (hx : x < w) (hy : y < h) (px py : Nat) :
    (fb.flip x y).pixel px py = if px = x ∧ py = y then !fb.pixel x y else fb.pixel px py := by
  obtain ⟨rfl, hrows⟩ := hs
  have hlen := hrows fb[y] (List.getElem_mem hy)
  unfold Framebuffer.pixel Framebuffer.flip
  by_cases hpy : py = y
  · subst hpy
    by_cases hpx : px = x
    · subst hpx
      simp [List.getElem?_eq_getElem hy, List.getElem?_eq_getElem (show px < fb[py].length by omega)]
    · simp [List.getElem?_eq_getElem hy, hpx, Ne.symm hpx]
  · simp [hpy, Ne.symm hpy]

/-! ## One pixel -/

theorem plot_shaped {c : Canvas} (hs : Framebuffer.Shaped w h c.fb) (x y : Nat) (bit : Bool) :
    Framebuffer.Shaped w h (c.plot w x y bit).fb := by
  unfold Canvas.plot
  split
  · exact flip_shaped hs x y
  · exact hs

theorem pixel_plot {c : Canvas} (hs : Framebuffer.Shaped w h c.fb) (x : Nat) {y : Nat} (hy : y < h)
    (bit : Bool) (px py : Nat) :
    (c.plot w x y bit).fb.pixel px py =
      (c.fb.pixel px py ^^ decide (px = x ∧ py = y ∧ x < w ∧ bit = true)) := by
  unfold Canvas.plot
  split
  · next hb =>
    rw [pixel_flip hs hb.1 hy]
    by_cases hp : px = x ∧ py = y
    · obtain ⟨rfl, rfl⟩ := hp; simp [hb.1, hb.2]
    · rw [if_neg hp]
      have : ¬ (px = x ∧ py = y ∧ x < w ∧ bit = true) := fun q => hp ⟨q.1, q.2.1⟩
      simp [this]
  · next hb =>
    have : ¬ (px = x ∧ py = y ∧ x < w ∧ bit = true) := fun q => hb q.2.2
    simp [this]

theorem collision_plot (c : Canvas) (x y : Nat) (bit : Bool) :
    (c.plot w x y bit).collision = (c.collision || decide (x < w ∧ bit = true ∧ c.fb.pixel x y = true)) := by
  unfold Canvas.plot
  split
  · next hb => simp [hb.1, hb.2]
  · next hb =>
    have : ¬ (x < w ∧ bit = true ∧ c.fb.pixel x y = true) := fun q => hb ⟨q.1, q.2.1⟩
    simp [this]

/-! ## One row -/

/-- The first k pixels of a sprite row. -/
def Canvas.plotBits (c : Canvas) (w x0 y : Nat) (row : Byte) (k : Nat) : Canvas :=
  (List.range k).foldl (fun c b => c.plot w (x0 + b) y (spriteBit row b)) c

theorem plotBits_succ (c : Canvas) (w x0 y : Nat) (row : Byte) (k : Nat) :
    c.plotBits w x0 y row (k + 1) = (c.plotBits w x0 y row k).plot w (x0 + k) y (spriteBit row k) := by
  simp [Canvas.plotBits, List.range_succ]

theorem plotBits_shaped {c : Canvas} (hs : Framebuffer.Shaped w h c.fb) (x0 y : Nat) (row : Byte) (k : Nat) :
    Framebuffer.Shaped w h (c.plotBits w x0 y row k).fb := by
  induction k with
  | zero => exact hs
  | succ k ih => rw [plotBits_succ]; exact plot_shaped ih _ _ _

theorem pixel_plotBits {c : Canvas} (hs : Framebuffer.Shaped w h c.fb) (x0 : Nat) {y : Nat} (hy : y < h)
    (row : Byte) (k px py : Nat) :
    (c.plotBits w x0 y row k).fb.pixel px py =
      (c.fb.pixel px py ^^
        decide (py = y ∧ x0 ≤ px ∧ px < x0 + k ∧ px < w ∧ spriteBit row (px - x0) = true)) := by
  induction k with
  | zero =>
    have : ¬ (py = y ∧ x0 ≤ px ∧ px < x0 + 0 ∧ px < w ∧ spriteBit row (px - x0) = true) := by omega
    simp only [this, decide_false, Bool.xor_false]; rfl
  | succ k ih =>
    rw [plotBits_succ, pixel_plot (plotBits_shaped hs x0 y row k) _ hy, ih]
    by_cases hk : px = x0 + k
    · subst hk
      simp
    · have h1 : ¬ (px = x0 + k ∧ py = y ∧ x0 + k < w ∧ spriteBit row k = true) := fun q => hk q.1
      have h2 : px < x0 + (k + 1) ↔ px < x0 + k := by omega
      simp [h1, h2]

theorem collision_plotBits {c : Canvas} (hs : Framebuffer.Shaped w h c.fb) (x0 : Nat) {y : Nat} (hy : y < h)
    (row : Byte) (k : Nat) :
    (c.plotBits w x0 y row k).collision =
      (c.collision || decide (∃ b, b < k ∧ x0 + b < w ∧ spriteBit row b = true ∧
        c.fb.pixel (x0 + b) y = true)) := by
  induction k with
  | zero => simp [Canvas.plotBits]
  | succ k ih =>
    have h1 : ¬ (y = y ∧ x0 ≤ x0 + k ∧ x0 + k < x0 + k ∧ x0 + k < w ∧
        spriteBit row (x0 + k - x0) = true) := by omega
    rw [plotBits_succ, collision_plot, ih, pixel_plotBits hs x0 hy, decide_eq_false h1, Bool.xor_false,
      Bool.or_assoc, ← Bool.decide_or]
    congr 1
    refine decide_eq_decide.mpr ⟨?_, ?_⟩
    · rintro (⟨b, hb, q⟩ | q)
      · exact ⟨b, by omega, q⟩
      · exact ⟨k, by omega, q⟩
    · rintro ⟨b, hb, q⟩
      rcases Nat.lt_succ_iff_lt_or_eq.mp hb with hb | rfl
      · exact .inl ⟨b, hb, q⟩
      · exact .inr q

theorem plotRow_eq (c : Canvas) (w x0 y : Nat) (row : Byte) :
    c.plotRow w x0 y row = c.plotBits w x0 y row 8 := rfl

theorem plotRow_shaped {c : Canvas} (hs : Framebuffer.Shaped w h c.fb) (x0 y : Nat) (row : Byte) :
    Framebuffer.Shaped w h (c.plotRow w x0 y row).fb := plotBits_shaped hs x0 y row 8

/-! ## The sprite -/

/-- The sprite rows drawn from row y down cover pixel (px, py). -/
def RowsCover (w h x0 y : Nat) (rows : List Byte) (px py : Nat) : Prop :=
  px < w ∧ py < h ∧ ∃ r b, b < 8 ∧ px = x0 + b ∧ py = y + r ∧ ∃ row, rows[r]? = some row ∧ spriteBit row b = true

theorem rowsCover_cons (w h x0 y : Nat) (row : Byte) (rows : List Byte) (px py : Nat) :
    RowsCover w h x0 y (row :: rows) px py ↔
      (py = y ∧ py < h ∧ x0 ≤ px ∧ px < x0 + 8 ∧ px < w ∧ spriteBit row (px - x0) = true) ∨
        RowsCover w h x0 (y + 1) rows px py := by
  constructor
  · rintro ⟨hx, hy, r, b, hb, rfl, rfl, row', hr, hbit⟩
    cases r with
    | zero =>
      left
      simp only [List.getElem?_cons_zero, Option.some.injEq] at hr
      subst hr
      exact ⟨by omega, hy, by omega, by omega, hx, by simpa using hbit⟩
    | succ r => exact .inr ⟨hx, hy, r, b, hb, rfl, by omega, row', by simpa using hr, hbit⟩
  · rintro (⟨rfl, hy, hx0, hx8, hx, hbit⟩ | ⟨hx, hy, r, b, hb, hpx, hpy, q⟩)
    · exact ⟨hx, hy, 0, px - x0, by omega, by omega, by omega, row, rfl, hbit⟩
    · exact ⟨hx, hy, r + 1, b, hb, hpx, by omega, by simpa using q⟩

/-- A row below covers no pixel of a row above. -/
theorem not_rowsCover_above {w h x0 y : Nat} {rows : List Byte} {px py : Nat} (hy : py < y) :
    ¬ RowsCover w h x0 y rows px py := by
  rintro ⟨-, -, r, b, -, -, rfl, -⟩
  omega

theorem plotRows_shaped {c : Canvas} (hs : Framebuffer.Shaped w h c.fb) (x0 y : Nat) (rows : List Byte) :
    Framebuffer.Shaped w h (c.plotRows w h x0 y rows).fb := by
  induction rows generalizing c y with
  | nil => exact hs
  | cons row rows ih =>
    refine ih ?_ (y + 1)
    split
    · exact plotRow_shaped hs x0 y row
    · exact hs

open Classical in
/-- The framebuffer after a sprite: every covered pixel inverted, every other as before (R183, R185). -/
theorem pixel_plotRows {c : Canvas} (hs : Framebuffer.Shaped w h c.fb) (x0 y : Nat) (rows : List Byte)
    (px py : Nat) :
    (c.plotRows w h x0 y rows).fb.pixel px py =
      (c.fb.pixel px py ^^ decide (RowsCover w h x0 y rows px py)) := by
  induction rows generalizing c y with
  | nil =>
    have : ¬ RowsCover w h x0 y [] px py := by rintro ⟨-, -, r, b, -, -, -, row, hr, -⟩; simp at hr
    simp [this, Canvas.plotRows]
  | cons row rows ih =>
    rw [Canvas.plotRows]
    by_cases hy : y < h
    · rw [if_pos hy, ih (plotRow_shaped hs x0 y row), plotRow_eq, pixel_plotBits hs x0 hy]
      by_cases hpy : py = y
      · subst hpy
        have h1 : ¬ RowsCover w h x0 (py + 1) rows px py := not_rowsCover_above (by omega)
        simp only [rowsCover_cons, h1, or_false, decide_false, Bool.xor_false, hy, true_and]
      · simp [rowsCover_cons, hpy]
    · rw [if_neg hy, ih hs]
      have h1 : ¬ (py = y ∧ py < h) := by omega
      congr 1
      refine decide_eq_decide.mpr ?_
      rw [rowsCover_cons]
      exact ⟨.inr, fun q => q.resolve_left fun p => h1 ⟨p.1, p.2.1⟩⟩

open Classical in
/-- The collision after a sprite: one was there before, or a covered pixel was on (R185). -/
theorem collision_plotRows {c : Canvas} (hs : Framebuffer.Shaped w h c.fb) (x0 y : Nat) (rows : List Byte) :
    (c.plotRows w h x0 y rows).collision =
      (c.collision || decide (∃ px py, RowsCover w h x0 y rows px py ∧ c.fb.pixel px py = true)) := by
  induction rows generalizing c y with
  | nil =>
    have : ¬ ∃ px py, RowsCover w h x0 y [] px py ∧ c.fb.pixel px py = true := by
      rintro ⟨px, py, ⟨-, -, r, b, -, -, -, row, hr, -⟩, -⟩; simp at hr
    simp [this, Canvas.plotRows]
  | cons row rows ih =>
    rw [Canvas.plotRows]
    by_cases hy : y < h
    · rw [if_pos hy, ih (plotRow_shaped hs x0 y row), plotRow_eq, collision_plotBits hs x0 hy,
        Bool.or_assoc, ← Bool.decide_or]
      congr 1
      refine decide_eq_decide.mpr ⟨?_, ?_⟩
      · rintro (⟨b, hb, hx, hbit, hon⟩ | ⟨px, py, hc, hon⟩)
        · exact ⟨x0 + b, y, (rowsCover_cons ..).mpr
            (.inl ⟨rfl, hy, by omega, by omega, hx, by simpa using hbit⟩), hon⟩
        · refine ⟨px, py, (rowsCover_cons ..).mpr (.inr hc), ?_⟩
          have hpy : py ≠ y := fun q => not_rowsCover_above (by omega) hc
          simpa [pixel_plotBits hs x0 hy, hpy] using hon
      · rintro ⟨px, py, hc, hon⟩
        rcases (rowsCover_cons ..).mp hc with ⟨rfl, -, hx0, hx8, hx, hbit⟩ | hc
        · exact .inl ⟨px - x0, by omega, by omega, hbit, by rwa [Nat.add_sub_cancel' hx0]⟩
        · refine .inr ⟨px, py, hc, ?_⟩
          have hpy : py ≠ y := fun q => not_rowsCover_above (by omega) hc
          simpa [pixel_plotBits hs x0 hy, hpy] using hon
    · rw [if_neg hy, ih hs]
      congr 1
      refine decide_eq_decide.mpr (exists_congr fun px => exists_congr fun py => and_congr_left fun _ => ?_)
      rw [rowsCover_cons]
      exact ⟨.inr, fun q => q.resolve_left fun p => hy (p.1 ▸ p.2.1)⟩

end Sys2Proof.Machine
end

