-- ==== Sys2Proof/Laws/Frame.lean ====
section
/-! SUPPORT. What the shared operations change, as frames, and what the key-wait and a reset can do. -/

namespace Sys2Proof.Machine

variable (s : State)

/-! ## Frames -/

theorem frame_setReg (x : RegIx) (b : Byte) : Frame { regs := (· = x) } s (s.setReg x b) := by
  constructor <;> simp
  exact fun r h => reg_setReg_ne s b h

theorem frame_setRegFlag (x : RegIx) (b : Byte) (c : Bool) :
    Frame { regs := fun r => r = x ∨ r = vf } s (s.setRegFlag x b c) := by
  constructor <;> simp [State.setRegFlag, State.setFlag]
  exact fun r hx hf => by rw [reg_setReg_ne _ _ hf, reg_setReg_ne _ _ hx]

theorem frame_skipIf (c : Bool) : Frame { pc := True } s (s.skipIf c) := by
  unfold State.skipIf
  split <;> constructor <;> simp

/-- A skip adds 2 to PC modulo 2^16 when it is taken (R110). -/
theorem skipIf_pc_toNat (c : Bool) :
    (s.skipIf c).pc.toNat = if c then (s.pc.toNat + 2) % 2 ^ 16 else s.pc.toNat := by
  unfold State.skipIf
  split <;> simp

theorem frame_writeBytes (a : Nat) (bs : List Byte) :
    Frame { bytes := Span a bs.length } s (s.writeBytes a bs) := by
  constructor
  case bytes => exact fun k h => byte_writeBytes_outside s a bs h
  all_goals rw [writeBytes_eq]; simp [State.reg]

/-! ## The sprite's bytes (R189) -/

/-- The compositor's rows are the sprite of `State.SpriteCovers`. -/
theorem rowsCover_readBytes (x y : RegIx) (n px py : Nat) :
    RowsCover s.cfg.displayW s.cfg.displayH (s.originX x) (s.originY y) (s.readBytes (s.dataAddr 0) n) px py ↔
      s.SpriteCovers x y n px py := by
  constructor
  · rintro ⟨hx, hy, r, b, hb, hpx, hpy, row, hr, hbit⟩
    simp only [State.readBytes, List.getElem?_map, Option.map_eq_some_iff, List.getElem?_eq_some_iff,
      List.getElem_range, List.length_range] at hr
    obtain ⟨k, ⟨hk, rfl⟩, rfl⟩ := hr
    exact ⟨hx, hy, r, b, hk, hb, hpx, hpy, hbit⟩
  · rintro ⟨hx, hy, r, b, hk, hb, hpx, hpy, hbit⟩
    exact ⟨hx, hy, r, b, hb, hpx, hpy, s.byte (s.i.toNat + r), by simp [State.readBytes, State.dataAddr, hk], hbit⟩

/-! ## The key-wait (R222) -/

/-- A waiting core releases on the first cycle with no key down after one with a key down, and else changes
nothing. -/
theorem keywait_cases (r : RegIx) :
    (s.kbdPrev ≠ 0 ∧ s.kbd = 0 ∧
      s.keywait r = (s.setReg r (BitVec.ofNat 8 (lowbit s.kbdPrev))).setHalt none) ∨
    (¬ (s.kbdPrev ≠ 0 ∧ s.kbd = 0) ∧ s.keywait r = s) := by
  unfold State.keywait
  split
  · next h => exact .inl ⟨h.1, h.2, rfl⟩
  · next h => exact .inr ⟨h, rfl⟩

/-! ## Reset (R260) -/

theorem resetWith_fail (p : List Byte) : (s.resetWith p).fail = validateLoad s.cfg p.length := by
  unfold State.resetWith
  simp only
  split
  · simp only
    rw [writeBytes_eq]
  · rfl

theorem resetWith_cfg (p : List Byte) : (s.resetWith p).cfg = s.cfg := by
  unfold State.resetWith
  simp only
  split
  · simp only
    rw [writeBytes_eq]
  · rfl

end Sys2Proof.Machine
end

