-- ==== Sys2Proof/Laws/Cycle.lean ====
section
/-! SUPPORT. What one step can do, said once: the inversion of `step`, the two branches, and when the invariant
carries over. -/

namespace Sys2Proof.Machine

variable {s t : State}

@[simp] theorem sampleKeys_fetchWord (s : State) : s.sampleKeys.fetchWord = s.fetchWord := rfl

@[simp] theorem sampleKeys_fetchable (s : State) : s.sampleKeys.fetchable = s.fetchable := rfl

theorem fetchable_iff (s : State) : s.fetchable = true ↔ s.pc.toNat + 1 < s.cfg.memSize := by
  simp [State.fetchable, State.inRange]

/-- An instruction ends in a next state or in the refusal of R203, never in a fault of the model. -/
theorem exec_cases (i : Instr) (s : State) :
    (∃ t, exec i s = .next t) ∨
      ∃ x, (i = .skp x ∨ i = .sknp x) ∧ s.keydown (s.reg x) = none ∧
        exec i s = .refused (.keyIndex (s.reg x)) := by
  cases i with
  | skp x =>
    cases h : s.keydown (s.reg x) with
    | some d => exact .inl ⟨s.skipIf d, by simp only [exec, execSkp, h]⟩
    | none => exact .inr ⟨x, .inl rfl, h, by simp only [exec, execSkp, h]⟩
  | sknp x =>
    cases h : s.keydown (s.reg x) with
    | some d => exact .inl ⟨s.skipIf (!d), by simp only [exec, execSknp, h]⟩
    | none => exact .inr ⟨x, .inr rfl, h, by simp only [exec, execSknp, h]⟩
  | sys nnn => left; simp only [exec, execSys]; split <;> exact ⟨_, rfl⟩
  | ret => left; simp only [exec, execRet]; split <;> exact ⟨_, rfl⟩
  | call nnn => left; simp only [exec, execCall]; split <;> exact ⟨_, rfl⟩
  | drw x y n => left; simp only [exec, execDrw]; split_ifs <;> exact ⟨_, rfl⟩
  | ldB x => left; simp only [exec, execLdB]; split <;> exact ⟨_, rfl⟩
  | storeRegs x => left; simp only [exec, execStoreRegs]; split <;> exact ⟨_, rfl⟩
  | loadRegs x => left; simp only [exec, execLoadRegs]; split <;> exact ⟨_, rfl⟩
  | _ => exact .inl ⟨_, rfl⟩

/-- A running core's step is `runCycle` after the keyboard sample. -/
theorem step_running (h : s.Running) : step s = runCycle s.sampleKeys := by
  obtain ⟨⟨hr, hf⟩, hh⟩ := h
  simp [step, doCycle, okCycle, hr, hf, hh]

/-- A waiting core's step is the key-wait and the end of the cycle. -/
theorem step_awaiting {r : RegIx} (h : s.Awaiting r) :
    step s = .next ((s.sampleKeys.keywait r).endCycle s.cfg.keywaitCost) := by
  obtain ⟨⟨hr, hf⟩, hh⟩ := h
  simp [step, doCycle, okCycle, hr, hf, hh]

/-- A running core whose opcode decodes runs the instruction and ends the cycle. -/
theorem runCycle_ok {i : Instr} (hf : s.fetchable = true) (hd : decode s.fetchWord = .ok i) :
    runCycle s = finishCycle (costOf s.cfg s.fetchWord) (exec i s.afterFetch) := by
  simp [runCycle, executeWord, hf, hd]

/-- A running core whose opcode spells no instruction raises UNEXPECTED_OPCODE. -/
theorem runCycle_error {e : DecodeError} (hf : s.fetchable = true) (hd : decode s.fetchWord = .error e) :
    runCycle s = .next ((s.afterFetch.raise .unexpectedOpcode).finish (costOf s.cfg s.fetchWord)) := by
  simp [runCycle, executeWord, finishCycle, hf, hd]

/-- Everything a step that answers a next state can have done. -/
theorem step_next_cases (h : step s = .next t) :
    s.Ok ∧
      ((∃ r, s.halt = some r ∧ t = (s.sampleKeys.keywait r).endCycle s.cfg.keywaitCost) ∨
        (s.halt = none ∧ s.fetchable = false ∧
          t = (s.sampleKeys.raise .indexOutOfBounds).endFaulted) ∨
        (s.halt = none ∧ s.fetchable = true ∧ (∃ e, decode s.fetchWord = .error e) ∧
          t = (s.sampleKeys.afterFetch.raise .unexpectedOpcode).endFaulted) ∨
        (s.halt = none ∧ s.fetchable = true ∧ ∃ i u, decode s.fetchWord = .ok i ∧
          exec i s.sampleKeys.afterFetch = .next u ∧ t = u.finish (costOf s.cfg s.fetchWord))) := by
  by_cases hr : s.wasReset = true
  swap
  · simp [step, doCycle, hr] at h
  by_cases hf : s.fail = .ok
  swap
  · simp [step, doCycle, hr, hf] at h
  refine ⟨⟨hr, hf⟩, ?_⟩
  cases hh : s.halt with
  | some r =>
    rw [step_awaiting ⟨⟨hr, hf⟩, hh⟩] at h
    exact .inl ⟨r, rfl, (Host.Outcome.next.inj h).symm⟩
  | none =>
    rw [step_running ⟨⟨hr, hf⟩, hh⟩] at h
    right
    cases hfe : s.fetchable with
    | false =>
      simp only [runCycle, sampleKeys_fetchable, hfe, Bool.false_eq_true, if_false] at h
      exact .inl ⟨rfl, rfl, (Host.Outcome.next.inj h).symm⟩
    | true =>
      right
      cases hd : decode s.fetchWord with
      | error e =>
        rw [runCycle_error (by simpa using hfe) (by simpa using hd)] at h
        exact .inl ⟨rfl, rfl, ⟨e, rfl⟩, by simpa [State.finish] using (Host.Outcome.next.inj h).symm⟩
      | ok i =>
        rw [runCycle_ok (by simpa using hfe) (by simpa using hd)] at h
        right
        rcases exec_cases i s.sampleKeys.afterFetch with ⟨u, hu⟩ | ⟨x, -, -, hu⟩
        · rw [hu] at h
          exact ⟨rfl, rfl, i, u, rfl, hu, (Host.Outcome.next.inj h).symm⟩
        · rw [hu] at h
          simp [finishCycle] at h

/-- The invariant depends on the configuration, the stack, memory and the framebuffer alone. -/
theorem inv_of_eq (hs : s.Inv) (hcfg : t.cfg = s.cfg) (hsp : t.sp = s.sp) (hstack : t.stack = s.stack)
    (hmem : t.mem = s.mem) (hfb : t.fb = s.fb) : t.Inv := by
  unfold State.Inv
  rw [hcfg, hsp, hstack, hmem, hfb]
  exact hs

end Sys2Proof.Machine
end

