-- ==== Sys2Proof/Laws/Decode.lean ====
section
/-! SUPPORT. The decoder's fields: what each reads from an encoded word, that the fields of a word rebuild it, and
how a match and mask of the opcode map fix them. -/

namespace Sys2Proof

/-! ## Fields of an encoded word (R71, R72) -/

@[simp] theorem opFamily_encNNN (f : BitVec 4) (nnn : Addr) : opFamily (encNNN f nnn) = f :=
  BitVec.extractLsb'_append_eq_left

@[simp] theorem opNNN_encNNN (f : BitVec 4) (nnn : Addr) : opNNN (encNNN f nnn) = nnn :=
  BitVec.extractLsb'_append_eq_right

@[simp] theorem opFamily_encXNN (f : BitVec 4) (x : RegIx) (nn : Byte) : opFamily (encXNN f x nn) = f :=
  (BitVec.extractLsb'_append_eq_of_le (by omega)).trans BitVec.extractLsb'_append_eq_left

@[simp] theorem opX_encXNN (f : BitVec 4) (x : RegIx) (nn : Byte) : opX (encXNN f x nn) = x :=
  congrArg BitVec.toFin
    ((BitVec.extractLsb'_append_eq_of_le (by omega)).trans BitVec.extractLsb'_append_eq_right)

@[simp] theorem opNN_encXNN (f : BitVec 4) (x : RegIx) (nn : Byte) : opNN (encXNN f x nn) = nn :=
  BitVec.extractLsb'_append_eq_right

@[simp] theorem opFamily_encXYN (f : BitVec 4) (x y : RegIx) (n : BitVec 4) :
    opFamily (encXYN f x y n) = f :=
  (BitVec.extractLsb'_append_eq_of_le (by omega)).trans
    ((BitVec.extractLsb'_append_eq_of_le (by omega)).trans BitVec.extractLsb'_append_eq_left)

@[simp] theorem opX_encXYN (f : BitVec 4) (x y : RegIx) (n : BitVec 4) : opX (encXYN f x y n) = x :=
  congrArg BitVec.toFin ((BitVec.extractLsb'_append_eq_of_le (by omega)).trans
    ((BitVec.extractLsb'_append_eq_of_le (by omega)).trans BitVec.extractLsb'_append_eq_right))

@[simp] theorem opY_encXYN (f : BitVec 4) (x y : RegIx) (n : BitVec 4) : opY (encXYN f x y n) = y :=
  congrArg BitVec.toFin
    ((BitVec.extractLsb'_append_eq_of_le (by omega)).trans BitVec.extractLsb'_append_eq_right)

@[simp] theorem opSub_encXYN (f : BitVec 4) (x y : RegIx) (n : BitVec 4) : opSub (encXYN f x y n) = n :=
  BitVec.extractLsb'_append_eq_right

@[simp] theorem opN_encXYN (f : BitVec 4) (x y : RegIx) (n : Count) :
    opN (encXYN f x y (BitVec.ofFin n)) = n :=
  congrArg BitVec.toFin BitVec.extractLsb'_append_eq_right

/-! ## A word from its fields -/

/-- Two adjoining fields are one field. -/
theorem join_fields (op : Word) {hi lo m n : Nat} (h : hi = lo + n) :
    op.extractLsb' hi m ++ op.extractLsb' lo n = op.extractLsb' lo (m + n) :=
  BitVec.extractLsb'_append_extractLsb'_eq_extractLsb' h

theorem encNNN_fields (op : Word) : encNNN (opFamily op) (opNNN op) = op :=
  (join_fields op rfl).trans BitVec.extractLsb'_eq_self

theorem encXNN_fields (op : Word) : encXNN (opFamily op) (opX op) (opNN op) = op := by
  change op.extractLsb' 12 4 ++ op.extractLsb' 8 4 ++ op.extractLsb' 0 8 = op
  rw [join_fields op (show 12 = 8 + 4 from rfl), join_fields op (show 8 = 0 + 8 from rfl)]
  exact BitVec.extractLsb'_eq_self

theorem encXYN_fields (op : Word) : encXYN (opFamily op) (opX op) (opY op) (opSub op) = op := by
  change op.extractLsb' 12 4 ++ op.extractLsb' 8 4 ++ op.extractLsb' 4 4 ++ op.extractLsb' 0 4 = op
  rw [join_fields op (show 12 = 8 + 4 from rfl), join_fields op (show 8 = 4 + 4 from rfl),
    join_fields op (show 4 = 0 + 4 from rfl)]
  exact BitVec.extractLsb'_eq_self

/-! ## Match and mask (R75) -/

/-- Where a mask is all ones over a field, matching it fixes the field. -/
theorem field_of_match {op mask pattern : Word} (h : op &&& mask = pattern) (lo n : Nat)
    (hm : mask.extractLsb' lo n = BitVec.allOnes n) : op.extractLsb' lo n = pattern.extractLsb' lo n := by
  have h' := congrArg (BitVec.extractLsb' lo n) h
  rwa [BitVec.extractLsb'_and, hm, BitVec.and_allOnes] at h'

/-! ## Two bytes and their word (R57) -/

@[simp] theorem wordOfBytes_bytesOfWord (op : Word) :
    wordOfBytes (bytesOfWord op).1 (bytesOfWord op).2 = op :=
  (join_fields op rfl).trans BitVec.extractLsb'_eq_self

end Sys2Proof
end

