-- ==== Sys2Proof/Laws/PerInstr.lean ====
section
/-! SUPPORT. The family EncodingRow: every instruction's word matches its own row of the opcode table. -/

namespace Sys2Proof.Laws.EncodingRow

/-! ## The table's match and mask (R75) -/

/-- The mask and match of an instruction's row, from the opcode table. -/
def maskMatch : Instr → Word × Word
  | .cls => (0xFFFF, 0x00E0)
  | .ret => (0xFFFF, 0x00EE)
  | .sys _ => (0xF000, 0x0000)
  | .jp _ => (0xF000, 0x1000)
  | .call _ => (0xF000, 0x2000)
  | .seImm _ _ => (0xF000, 0x3000)
  | .sneImm _ _ => (0xF000, 0x4000)
  | .seReg _ _ => (0xF00F, 0x5000)
  | .sneReg _ _ => (0xF00F, 0x9000)
  | .ldImm _ _ => (0xF000, 0x6000)
  | .addImm _ _ => (0xF000, 0x7000)
  | .ldReg _ _ => (0xF00F, 0x8000)
  | .orReg _ _ => (0xF00F, 0x8001)
  | .andReg _ _ => (0xF00F, 0x8002)
  | .xorReg _ _ => (0xF00F, 0x8003)
  | .addReg _ _ => (0xF00F, 0x8004)
  | .sub _ _ => (0xF00F, 0x8005)
  | .subn _ _ => (0xF00F, 0x8007)
  | .shr _ _ => (0xF00F, 0x8006)
  | .shl _ _ => (0xF00F, 0x800E)
  | .ldI _ => (0xF000, 0xA000)
  | .jpV0 _ => (0xF000, 0xB000)
  | .rnd _ _ => (0xF000, 0xC000)
  | .drw _ _ _ => (0xF000, 0xD000)
  | .skp _ => (0xF0FF, 0xE09E)
  | .sknp _ => (0xF0FF, 0xE0A1)
  | .ldVxDt _ => (0xF0FF, 0xF007)
  | .ldDtVx _ => (0xF0FF, 0xF015)
  | .ldStVx _ => (0xF0FF, 0xF018)
  | .ldVxK _ => (0xF0FF, 0xF00A)
  | .addI _ => (0xF0FF, 0xF01E)
  | .ldF _ => (0xF0FF, 0xF029)
  | .ldB _ => (0xF0FF, 0xF033)
  | .storeRegs _ => (0xF0FF, 0xF055)
  | .loadRegs _ => (0xF0FF, 0xF065)

/-- The word of an instruction has its row's match under its row's mask. -/
def Statement (i : Instr) : Prop := encode i &&& (maskMatch i).1 = (maskMatch i).2

/-! ## The formats (R72) -/

/-- A mask of whole fields keeps a field or clears it. -/
theorem match_append {m n : Nat} (a a' : BitVec m) (b b' : BitVec n) :
    (a ++ b) &&& (a' ++ b') = (a &&& a') ++ (b &&& b') := BitVec.and_append

theorem encNNN_match (f : BitVec 4) (nnn : Addr) : encNNN f nnn &&& 0xF000#16 = f ++ 0x000#12 := by
  change (f ++ nnn) &&& (BitVec.allOnes 4 ++ 0#12) = _
  rw [match_append, BitVec.and_allOnes, BitVec.and_zero]

theorem encXNN_match (f : BitVec 4) (x : RegIx) (nn : Byte) :
    encXNN f x nn &&& 0xF000#16 = f ++ 0x0#4 ++ 0x00#8 := by
  change (f ++ (BitVec.ofFin x : BitVec 4) ++ nn) &&& (BitVec.allOnes 4 ++ 0#4 ++ 0#8) = _
  rw [match_append, match_append, BitVec.and_allOnes, BitVec.and_zero, BitVec.and_zero]

theorem encX_match (f : BitVec 4) (x : RegIx) (nn : Byte) : encXNN f x nn &&& 0xF0FF#16 = f ++ 0x0#4 ++ nn := by
  change (f ++ (BitVec.ofFin x : BitVec 4) ++ nn) &&& (BitVec.allOnes 4 ++ 0#4 ++ BitVec.allOnes 8) = _
  rw [match_append, match_append, BitVec.and_allOnes, BitVec.and_zero, BitVec.and_allOnes]

theorem encXY_match (f : BitVec 4) (x y : RegIx) (n : BitVec 4) :
    encXYN f x y n &&& 0xF00F#16 = f ++ 0x0#4 ++ 0x0#4 ++ n := by
  change (f ++ (BitVec.ofFin x : BitVec 4) ++ (BitVec.ofFin y : BitVec 4) ++ n) &&&
    (BitVec.allOnes 4 ++ 0#4 ++ 0#4 ++ BitVec.allOnes 4) = f ++ 0#4 ++ 0#4 ++ n
  rw [match_append, match_append, match_append, BitVec.and_allOnes, BitVec.and_allOnes, BitVec.and_zero,
    BitVec.and_zero]

theorem encXYN_match (f : BitVec 4) (x y : RegIx) (n : BitVec 4) :
    encXYN f x y n &&& 0xF000#16 = f ++ 0x0#4 ++ 0x0#4 ++ 0x0#4 := by
  change (f ++ (BitVec.ofFin x : BitVec 4) ++ (BitVec.ofFin y : BitVec 4) ++ n) &&&
    (BitVec.allOnes 4 ++ 0#4 ++ 0#4 ++ 0#4) = f ++ 0#4 ++ 0#4 ++ 0#4
  rw [match_append, match_append, match_append, BitVec.and_allOnes, BitVec.and_zero, BitVec.and_zero,
    BitVec.and_zero]

/-! ## One lemma for each instruction -/

theorem cls : Statement .cls := by unfold Statement; decide
theorem ret : Statement .ret := by unfold Statement; decide
theorem sys (nnn : Addr) : Statement (.sys nnn) := (encNNN_match _ _).trans rfl
theorem jp (nnn : Addr) : Statement (.jp nnn) := (encNNN_match _ _).trans rfl
theorem call (nnn : Addr) : Statement (.call nnn) := (encNNN_match _ _).trans rfl
theorem seImm (x : RegIx) (nn : Byte) : Statement (.seImm x nn) := (encXNN_match _ _ _).trans rfl
theorem sneImm (x : RegIx) (nn : Byte) : Statement (.sneImm x nn) := (encXNN_match _ _ _).trans rfl
theorem seReg (x y : RegIx) : Statement (.seReg x y) := (encXY_match _ _ _ _).trans rfl
theorem sneReg (x y : RegIx) : Statement (.sneReg x y) := (encXY_match _ _ _ _).trans rfl
theorem ldImm (x : RegIx) (nn : Byte) : Statement (.ldImm x nn) := (encXNN_match _ _ _).trans rfl
theorem addImm (x : RegIx) (nn : Byte) : Statement (.addImm x nn) := (encXNN_match _ _ _).trans rfl
theorem ldReg (x y : RegIx) : Statement (.ldReg x y) := (encXY_match _ _ _ _).trans rfl
theorem orReg (x y : RegIx) : Statement (.orReg x y) := (encXY_match _ _ _ _).trans rfl
theorem andReg (x y : RegIx) : Statement (.andReg x y) := (encXY_match _ _ _ _).trans rfl
theorem xorReg (x y : RegIx) : Statement (.xorReg x y) := (encXY_match _ _ _ _).trans rfl
theorem addReg (x y : RegIx) : Statement (.addReg x y) := (encXY_match _ _ _ _).trans rfl
theorem sub (x y : RegIx) : Statement (.sub x y) := (encXY_match _ _ _ _).trans rfl
theorem subn (x y : RegIx) : Statement (.subn x y) := (encXY_match _ _ _ _).trans rfl
theorem shr (x y : RegIx) : Statement (.shr x y) := (encXY_match _ _ _ _).trans rfl
theorem shl (x y : RegIx) : Statement (.shl x y) := (encXY_match _ _ _ _).trans rfl
theorem ldI (nnn : Addr) : Statement (.ldI nnn) := (encNNN_match _ _).trans rfl
theorem jpV0 (nnn : Addr) : Statement (.jpV0 nnn) := (encNNN_match _ _).trans rfl
theorem rnd (x : RegIx) (nn : Byte) : Statement (.rnd x nn) := (encXNN_match _ _ _).trans rfl
theorem drw (x y : RegIx) (n : Count) : Statement (.drw x y n) := (encXYN_match _ _ _ _).trans rfl
theorem skp (x : RegIx) : Statement (.skp x) := (encX_match _ _ _).trans rfl
theorem sknp (x : RegIx) : Statement (.sknp x) := (encX_match _ _ _).trans rfl
theorem ldVxDt (x : RegIx) : Statement (.ldVxDt x) := (encX_match _ _ _).trans rfl
theorem ldDtVx (x : RegIx) : Statement (.ldDtVx x) := (encX_match _ _ _).trans rfl
theorem ldStVx (x : RegIx) : Statement (.ldStVx x) := (encX_match _ _ _).trans rfl
theorem ldVxK (x : RegIx) : Statement (.ldVxK x) := (encX_match _ _ _).trans rfl
theorem addI (x : RegIx) : Statement (.addI x) := (encX_match _ _ _).trans rfl
theorem ldF (x : RegIx) : Statement (.ldF x) := (encX_match _ _ _).trans rfl
theorem ldB (x : RegIx) : Statement (.ldB x) := (encX_match _ _ _).trans rfl
theorem storeRegs (x : RegIx) : Statement (.storeRegs x) := (encX_match _ _ _).trans rfl
theorem loadRegs (x : RegIx) : Statement (.loadRegs x) := (encX_match _ _ _).trans rfl

end Sys2Proof.Laws.EncodingRow
end

