-- ==== Sys2Proof/Tests/Slice0.lean ====
section
/-! SUPPORT. Tests: words written out from 30_encoding.md, single steps whose expected results are the vectors of
95_test_vectors.md (named in each docstring), and a witness for the hypotheses of every obligation. -/

namespace Sys2Proof.Tests

open Sys2Proof.Machine

set_option maxRecDepth 4000

/-! ## Helpers -/

/-- The launch state with one opcode at 0x200. -/
def ready (w : Nat) : State := State.reset.withFetchWord 16 w

/-- A state with some registers set. -/
def withRegs (s : State) (l : List (RegIx × Byte)) : State := l.foldl (fun s p => s.setReg p.1 p.2) s

/-- The next state exists and passes a check. -/
def nextIs (o : Result) (p : State → Bool) : Bool :=
  match o with
  | .next t => p t
  | .fault _ | .refused _ => false

/-- The machine stops with this fault. -/
def faultIs (o : Result) (f : Fault) : Bool :=
  match o with
  | .fault g => g == f
  | .next _ | .refused _ => false

/-- The model refuses for this reason. -/
def refusedIs (o : Result) (r : Refusal) : Bool :=
  match o with
  | .refused q => q == r
  | .next _ | .fault _ => false

/-- The launch state with SHIFT_PROFILE = MODERN. -/
def modern (s : State) : State := { s with cfg := { s.cfg with shiftProfile := .modern } }

/-- The launch state with another KEY_INDEX_POLICY. -/
def policy (s : State) (p : KeyIndexPolicy) : State := { s with cfg := { s.cfg with keyIndexPolicy := p } }

/-- STRICT_SYS = false. -/
def lenient (s : State) : State := { s with cfg := { s.cfg with strictSys := false } }

/-- A keypad that answers the listed masks. -/
def keys (s : State) (l : List Word) : State := { s with keypad := ⟨0, l⟩ }

/-! ## WellFormed: the two ill-formed words are refused, a neighbour is not -/

theorem test_wf_refuses_sys_0E0 : (Instr.sys 0x0E0).wf = false := by decide
theorem test_wf_refuses_sys_0EE : (Instr.sys 0x0EE).wf = false := by decide
theorem test_wf_accepts_sys_1E0 : (Instr.sys 0x1E0).wf = true := by decide

/-! ## Decode: one word for each constructor, written out from the patterns of R75 -/

theorem test_decode_fixed_and_address :
    decodeTableWord 16 0x00E0 = some .cls ∧ decodeTableWord 16 0x00EE = some .ret ∧
    decodeTableWord 16 0x01E0 = some (.sys 0x1E0) ∧ decodeTableWord 16 0x1234 = some (.jp 0x234) ∧
    decodeTableWord 16 0x2208 = some (.call 0x208) ∧ decodeTableWord 16 0xAFFE = some (.ldI 0xFFE) ∧
    decodeTableWord 16 0xB301 = some (.jpV0 0x301) := by decide
theorem test_decode_immediate :
    decodeTableWord 16 0x35BE = some (.seImm 5 0xBE) ∧ decodeTableWord 16 0x41FE = some (.sneImm 1 0xFE) ∧
    decodeTableWord 16 0x6DFE = some (.ldImm 0xD 0xFE) ∧ decodeTableWord 16 0x71FF = some (.addImm 1 0xFF) ∧
    decodeTableWord 16 0xC30F = some (.rnd 3 0x0F) := by decide
theorem test_decode_register :
    decodeTableWord 16 0x5120 = some (.seReg 1 2) ∧ decodeTableWord 16 0x9120 = some (.sneReg 1 2) ∧
    decodeTableWord 16 0x8120 = some (.ldReg 1 2) ∧ decodeTableWord 16 0x8121 = some (.orReg 1 2) ∧
    decodeTableWord 16 0x8122 = some (.andReg 1 2) ∧ decodeTableWord 16 0x8123 = some (.xorReg 1 2) ∧
    decodeTableWord 16 0x8D34 = some (.addReg 0xD 3) ∧ decodeTableWord 16 0x8125 = some (.sub 1 2) ∧
    decodeTableWord 16 0x8126 = some (.shr 1 2) ∧ decodeTableWord 16 0x8127 = some (.subn 1 2) ∧
    decodeTableWord 16 0x812E = some (.shl 1 2) := by decide
theorem test_decode_draw_and_keys :
    decodeTableWord 16 0xD125 = some (.drw 1 2 5) ∧ decodeTableWord 16 0xE19E = some (.skp 1) ∧
    decodeTableWord 16 0xE1A1 = some (.sknp 1) := by decide
theorem test_decode_family_F :
    decodeTableWord 16 0xF307 = some (.ldVxDt 3) ∧ decodeTableWord 16 0xF30A = some (.ldVxK 3) ∧
    decodeTableWord 16 0xF115 = some (.ldDtVx 1) ∧ decodeTableWord 16 0xF118 = some (.ldStVx 1) ∧
    decodeTableWord 16 0xF11E = some (.addI 1) ∧ decodeTableWord 16 0xF129 = some (.ldF 1) ∧
    decodeTableWord 16 0xFA33 = some (.ldB 0xA) ∧ decodeTableWord 16 0xF255 = some (.storeRegs 2) ∧
    decodeTableWord 16 0xF265 = some (.loadRegs 2) := by decide
/-- F4 to F10 -/
theorem test_decode_unexpected :
    decodeTableWord 16 0x5121 = none ∧ decodeTableWord 16 0x8008 = none ∧ decodeTableWord 16 0x800F = none ∧
    decodeTableWord 16 0x9121 = none ∧ decodeTableWord 16 0xE000 = none ∧ decodeTableWord 16 0xF000 = none ∧
    decodeTableWord 16 0xF0FF = none := by decide
theorem test_bytes_high_byte_first : bytesOfWord 0x12F0 = (0x12, 0xF0) := by decide
theorem test_decode_too_short : decodeBytes [0x12] = .error .tooShort := by decide

/-! ## Single steps: the cycle -/

/-- F1, its second cycle -/
theorem test_fetch_out_of_range :
    nextIs (step (State.reset.setPc 0xFFF)) (fun t => t.fail = .indexOutOfBounds ∧ t.pc = 0xFFF ∧ t.cyc = 0) := by
  decide
/-- F5 -/
theorem test_unexpected_opcode :
    nextIs (step (ready 0x8008)) (fun t => t.fail = .unexpectedOpcode ∧ t.pc = 0x202 ∧ t.cyc = 0) := by decide
/-- F3 -/
theorem test_no_step_after_a_fault :
    faultIs (step (State.reset.raise .indexOutOfBounds)) (.notOk .indexOutOfBounds) := by decide
/-- R42 -/
theorem test_no_step_before_reset : faultIs (step { State.reset with wasReset := false }) .notReset := by decide
/-- F14 -/
theorem test_cost_of_one_opcode :
    nextIs (step { ready 0x6000 with cfg := { defaultConfig with costRows := [(0x6000, 7)] } })
      (fun t => t.cyc = 7 ∧ t.lastCost = 7) := by decide

/-! ## Single steps: control transfer -/

/-- F12 -/
theorem test_sys_lenient :
    nextIs (step (lenient (ready 0x0123))) (fun t => t.pc = 0x202 ∧ t.fail = .ok ∧ t.cyc = 1) := by decide
/-- F13 -/
theorem test_sys_strict :
    nextIs (step (ready 0x01E0)) (fun t => t.fail = .unexpectedOpcode ∧ t.pc = 0x202) := by decide
/-- C6 -/
theorem test_ret :
    nextIs (step { ready 0x00EE with sp := 15, stack := List.replicate 15 0 ++ [0x206] })
      (fun t => t.pc = 0x206 ∧ t.sp = 16 ∧ t.stackAt 15 = 0x206) := by decide
/-- C5 -/
theorem test_ret_underflow :
    nextIs (step (ready 0x00EE)) (fun t => t.fail = .stackUnderflow ∧ t.pc = 0x202 ∧ t.sp = 16) := by decide
/-- C3 -/
theorem test_call :
    nextIs (step (ready 0x2208)) (fun t => t.sp = 15 ∧ t.stackAt 15 = 0x202 ∧ t.pc = 0x208) := by decide
/-- C4, its second cycle -/
theorem test_call_overflow :
    nextIs (step { ready 0x2200 with sp := 0 }) (fun t => t.fail = .stackOverflow ∧ t.pc = 0x202 ∧ t.sp = 0) := by
  decide
/-- C1 -/
theorem test_jp : nextIs (step (ready 0x1234)) (fun t => t.pc = 0x234) := by decide
/-- C8, its first cycle -/
theorem test_jpV0 : nextIs (step (withRegs (ready 0xBFFF) [(0, 0xFF)])) (fun t => t.pc = 0x10FE) := by decide
/-- C11 -/
theorem test_seImm_taken : nextIs (step (withRegs (ready 0x35BE) [(5, 0xBE)])) (fun t => t.pc = 0x204) := by decide
/-- C12 -/
theorem test_seImm_not_taken :
    nextIs (step (withRegs (ready 0x35BE) [(5, 0xBF)])) (fun t => t.pc = 0x202) := by decide
/-- C13 -/
theorem test_sneImm_not_taken : nextIs (step (ready 0x4100)) (fun t => t.pc = 0x202) := by decide
/-- C14 -/
theorem test_sneImm_taken : nextIs (step (withRegs (ready 0x4100) [(1, 1)])) (fun t => t.pc = 0x204) := by decide
/-- C15 -/
theorem test_seReg_taken :
    nextIs (step (withRegs (ready 0x5120) [(1, 7), (2, 7)])) (fun t => t.pc = 0x204) := by decide
/-- C16 -/
theorem test_seReg_not_taken :
    nextIs (step (withRegs (ready 0x5120) [(1, 7), (2, 8)])) (fun t => t.pc = 0x202) := by decide
/-- C18 -/
theorem test_sneReg_taken :
    nextIs (step (withRegs (ready 0x9120) [(1, 7), (2, 8)])) (fun t => t.pc = 0x204) := by decide
/-- C19 -/
theorem test_sneReg_not_taken :
    nextIs (step (withRegs (ready 0x9110) [(1, 7)])) (fun t => t.pc = 0x202) := by decide

/-! ## Single steps: ALU -/

/-- A2 -/
theorem test_ldImm : nextIs (step (ready 0x6FAB)) (fun t => t.reg 0xF = 0xAB) := by decide
/-- A4 -/
theorem test_addImm :
    nextIs (step (withRegs (ready 0x7101) [(1, 0xFF)])) (fun t => t.reg 1 = 0 ∧ t.reg 0xF = 0) := by decide
/-- A5 -/
theorem test_ldReg : nextIs (step (withRegs (ready 0x8120) [(2, 0x33)])) (fun t => t.reg 1 = 0x33) := by decide
/-- A6 -/
theorem test_orReg :
    nextIs (step (withRegs (ready 0x8121) [(1, 0x0C), (2, 0x0A), (0xF, 0x55)]))
      (fun t => t.reg 1 = 0x0E ∧ t.reg 0xF = 0x55) := by decide
/-- A7 -/
theorem test_andReg :
    nextIs (step (withRegs (ready 0x8122) [(1, 0x0C), (2, 0x0A), (0xF, 0x55)]))
      (fun t => t.reg 1 = 0x08 ∧ t.reg 0xF = 0x55) := by decide
/-- A8 -/
theorem test_xorReg :
    nextIs (step (withRegs (ready 0x8123) [(1, 0x0C), (2, 0x0A), (0xF, 0x55)]))
      (fun t => t.reg 1 = 0x06 ∧ t.reg 0xF = 0x55) := by decide
/-- A10 -/
theorem test_addReg_carry :
    nextIs (step (withRegs (ready 0x8D34) [(0xD, 0xFE), (3, 2)])) (fun t => t.reg 0xD = 0 ∧ t.reg 0xF = 1) := by
  decide
/-- A12 -/
theorem test_addReg_flag_last :
    nextIs (step (withRegs (ready 0x8F04) [(0xF, 0x80), (0, 0xFF)])) (fun t => t.reg 0xF = 1) := by decide
/-- A15 -/
theorem test_sub_borrow :
    nextIs (step (withRegs (ready 0x8125) [(1, 3), (2, 5)])) (fun t => t.reg 1 = 0xFE ∧ t.reg 0xF = 0) := by decide
/-- A17 -/
theorem test_sub_reads_old_vf :
    nextIs (step (withRegs (ready 0x81F5) [(1, 0), (0xF, 1)])) (fun t => t.reg 1 = 0xFF ∧ t.reg 0xF = 0) := by decide
/-- A18 -/
theorem test_subn :
    nextIs (step (withRegs (ready 0x8127) [(1, 3), (2, 5)])) (fun t => t.reg 1 = 2 ∧ t.reg 0xF = 1) := by decide
/-- A20 -/
theorem test_subn_equal :
    nextIs (step (withRegs (ready 0x8127) [(1, 0x42), (2, 0x42)])) (fun t => t.reg 1 = 0 ∧ t.reg 0xF = 1) := by
  decide
/-- A21 -/
theorem test_shr_original :
    nextIs (step (withRegs (ready 0x8126) [(1, 0xAA), (2, 5)]))
      (fun t => t.reg 1 = 2 ∧ t.reg 0xF = 1 ∧ t.reg 2 = 5) := by decide
/-- A26 -/
theorem test_shr_modern_flag_last :
    nextIs (step (modern (withRegs (ready 0x8F26) [(0xF, 3), (2, 0x80)]))) (fun t => t.reg 0xF = 1) := by decide
/-- A23 -/
theorem test_shl_original :
    nextIs (step (withRegs (ready 0x812E) [(2, 0x81)])) (fun t => t.reg 1 = 2 ∧ t.reg 0xF = 1) := by decide
/-- A24 -/
theorem test_shl_modern :
    nextIs (step (modern (withRegs (ready 0x812E) [(1, 0x40)]))) (fun t => t.reg 1 = 0x80 ∧ t.reg 0xF = 0) := by
  decide
/-- A30 -/
theorem test_rnd : nextIs (step { ready 0xC30F with random := [0xB7] }) (fun t => t.reg 3 = 0x07) := by decide
/-- A31: any random byte, the free one included -/
theorem test_rnd_masked_to_zero : (execRnd 3 0 State.reset) = .next (State.reset.drawRnd.setReg 3 0) := by
  simp [execRnd]

/-! ## Single steps: index register and memory -/

/-- M2 -/
theorem test_ldI : nextIs (step (ready 0xAFFF)) (fun t => t.i = 0xFFF) := by decide
/-- M3 -/
theorem test_addI :
    nextIs (step (withRegs (ready 0xF11E |>.setI 0x300) [(1, 0x10)])) (fun t => t.i = 0x310) := by decide
/-- M5 -/
theorem test_addI_wraps :
    nextIs (step (withRegs (ready 0xF11E |>.setI 0xFFFF) [(1, 2)])) (fun t => t.i = 1) := by decide
/-- M7 -/
theorem test_ldF : nextIs (step (withRegs (ready 0xF129) [(1, 0x1A)])) (fun t => t.i = 0x032) := by decide
/-- M9 -/
theorem test_ldB :
    nextIs (step (withRegs (ready 0xFA33 |>.setI 0x300) [(0xA, 0x9C)]))
      (fun t => t.byte 0x300 = 1 ∧ t.byte 0x301 = 5 ∧ t.byte 0x302 = 6 ∧ t.i = 0x300) := by decide
/-- M12 -/
theorem test_ldB_out_of_range :
    nextIs (step (ready 0xF033 |>.setI 0xFFE)) (fun t => t.fail = .indexOutOfBounds ∧ t.byte 0xFFE = 0) := by decide
/-- M14 -/
theorem test_storeRegs :
    nextIs (step (withRegs (ready 0xF255 |>.setI 0x300) [(0, 1), (1, 2), (2, 3)]))
      (fun t => t.byte 0x300 = 1 ∧ t.byte 0x302 = 3 ∧ t.byte 0x303 = 0 ∧ t.i = 0x303) := by decide
/-- M16 -/
theorem test_storeRegs_out_of_range :
    nextIs (step (ready 0xFF55 |>.setI 0xFF1)) (fun t => t.fail = .indexOutOfBounds ∧ t.i = 0xFF1) := by decide
/-- M19 -/
theorem test_loadRegs_font :
    nextIs (step (ready 0xF465))
      (fun t => t.reg 0 = 0xF0 ∧ t.reg 1 = 0x90 ∧ t.reg 4 = 0xF0 ∧ t.reg 5 = 0 ∧ t.i = 5) := by decide
/-- M20 -/
theorem test_loadRegs_out_of_range :
    nextIs (step (ready 0xFF65 |>.setI 0xFF1)) (fun t => t.fail = .indexOutOfBounds ∧ t.i = 0xFF1) := by decide

/-! ## Single steps: display -/

/-- D1 -/
theorem test_cls :
    nextIs (step { ready 0x00E0 with fb := Framebuffer.flip State.reset.fb 5 5 })
      (fun t => t.fb = State.reset.fb ∧ t.frameUpdated ∧ t.invalidated = some .whole) := by decide
/-- P4, its fifth cycle: glyph A clipped at the right edge (D5 lists the same pixels but names glyph 0: log 22) -/
theorem test_drw_clips :
    nextIs (step (withRegs (ready 0xD125 |>.setI 0x032) [(1, 0x3E)]))
      (fun t => t.pixel 62 0 ∧ t.pixel 63 2 ∧ !t.pixel 63 1 ∧ !t.pixel 0 0 ∧ t.reg 0xF = 0 ∧
        t.invalidated = some (.rect 62 0 2 5)) := by decide
/-- D12: bit 7 is the leftmost pixel, and a pixel that was on collides -/
theorem test_drw_collides :
    nextIs (step { withRegs ((ready 0xD121).setI 0x300 |>.setByte 0x300 0x80) [(1, 10), (2, 10)] with
        fb := Framebuffer.flip State.reset.fb 10 10 })
      (fun t => !t.pixel 10 10 ∧ t.reg 0xF = 1) := by decide

/-! ## Single steps: keys and timers -/

/-- K1 -/
theorem test_skp_down : nextIs (step (keys (withRegs (ready 0xE19E) [(1, 5)]) [0x0020])) (fun t => t.pc = 0x204) := by
  decide
/-- K6 -/
theorem test_skp_low_nibble :
    nextIs (step (policy (keys (withRegs (ready 0xE19E) [(1, 0x15)]) [0x0020]) .lowNibble)) (fun t => t.pc = 0x204) := by
  decide
/-- K4 -/
theorem test_sknp_up : nextIs (step (keys (withRegs (ready 0xE1A1) [(1, 5)]) [0xFFDF])) (fun t => t.pc = 0x204) := by
  decide
/-- K7 -/
theorem test_sknp_not_pressed :
    nextIs (step (keys (withRegs (ready 0xE1A1) [(1, 0x15)]) [0x0020])) (fun t => t.pc = 0x204) := by decide
/-- K8 -/
theorem test_skp_refused :
    refusedIs (step (policy (withRegs (ready 0xE19E) [(1, 0x15)]) .refuse)) (.keyIndex 0x15) := by decide
/-- T1 -/
theorem test_ldVxDt : nextIs (step { ready 0xF307 with delay := ⟨0x3C, 0⟩ }) (fun t => t.reg 3 = 0x3C) := by decide
/-- T2 -/
theorem test_ldDtVx :
    nextIs (step (withRegs (ready 0xF115) [(1, 0x3C)])) (fun t => t.delay = ⟨0x3C, 10⟩ ∧ t.cyc = 1) := by decide
/-- T4 -/
theorem test_ldStVx_one :
    nextIs (step (withRegs (ready 0xF118) [(1, 1)])) (fun t => t.sound.value = 0 ∧ !t.isPlayingSound) := by decide
/-- T5, with TIMER_PERIOD = 10 -/
theorem test_ldStVx_two :
    nextIs (step (withRegs (ready 0xF118) [(1, 2)])) (fun t => t.sound = ⟨2, 10⟩ ∧ t.isPlayingSound) := by decide
/-- W1, its first cycle -/
theorem test_ldVxK :
    nextIs (step (keys (ready 0xF20A) [0x0008, 0])) (fun t => t.halt = some 2 ∧ t.kbdPrev = 8 ∧ t.pc = 0x202) := by
  decide
/-- W2, its third cycle: the lowest of keys 1 and 2 -/
theorem test_release :
    nextIs (step { State.reset with halt := some 2, kbdPrev := 0x0006 })
      (fun t => t.reg 2 = 1 ∧ t.halt = none ∧ t.pc = 0x200) := by decide

/-- R225: a snapshot taken while waiting becomes KBD_PREV (W2, its second cycle) -/
theorem test_waiting_updates_kbdPrev :
    nextIs (step (keys { State.reset with halt := some 2 } [0x0006, 0]))
      (fun t => t.kbd = 6 ∧ t.kbdPrev = 6 ∧ t.halt = some 2 ∧ t.keypad = ⟨6, [0]⟩ ∧ t.cyc = 1) := by decide

/-! ## Reset and the host -/

/-- R46 -/
theorem test_validate :
    nextIs (transact .validate { State.reset with frameUpdated := true }) (fun t => t = State.reset) := by decide

/-- S6 and R5, R6 -/
theorem test_reset_lengths :
    (State.reset.resetWith []).fail = .noProgram ∧ (State.reset.resetWith [0]).fail = .programTooSmall ∧
    (State.reset.resetWith [0, 0xE0, 1]).fail = .ok ∧ validateLoad defaultConfig 3584 = .ok ∧
    validateLoad defaultConfig 3585 = .programTooLarge ∧
    validateLoad { defaultConfig with memSize := 0x264 } 100 = .ok ∧
    validateLoad { defaultConfig with memSize := 0x264 } 101 = .programTooLarge := by decide
/-- R4 -/
theorem test_reset_image :
    (State.reset.resetWith [0x12, 0xE0]).byte 0x200 = 0x12 ∧ (State.reset.resetWith [0x12, 0xE0]).byte 0x201 = 0xE0 ∧
    (State.reset.resetWith [0x12, 0xE0]).byte 0 = 0xF0 ∧ (State.reset.resetWith [0x12, 0xE0]).byte 79 = 0x80 ∧
    (State.reset.resetWith [0x12, 0xE0]).byte 80 = 0 := by decide
/-- R51 and log 13: a program of zeros lists nothing in memory, as in `State.reset` -/
theorem test_reset_of_zeros_lists_nothing : (State.reset.resetWith [0, 0]).mem = State.reset.mem := by decide
theorem test_fail_codes :
    FailCode.ok.code = 0 ∧ FailCode.indexOutOfBounds.code = 6 ∧ FailCode.unexpectedOpcode.code = 7 := by decide

/-! ## Witnesses: states and operands that meet the hypotheses of each obligation -/

/-- AWAITING_KEY with HALT = 2, on the release cycle. -/
def waiting : State := { State.reset with halt := some 2, kbdPrev := 0x0006 }

/-- A non-strict or two-register state for the whole-machine statements: CALL at 0x200. -/
def calling : State := ready 0x2208

/-- A state whose stack holds one return address. -/
def returning : State := { ready 0x00EE with sp := 15, stack := List.replicate 15 0 ++ [0x206] }

/-- Registers 0 and 1 hold 0x12 and 0x34, I is 0x300. -/
def storing : State := withRegs (State.reset.setI 0x300) [(0, 0x12), (1, 0x34)]

theorem witness_DecodeOfEncode :
    (Instr.sys 0xFFF).wf = true ∧ (Instr.drw 0xF 0 0xF).wf = true ∧ (Instr.ldB 0).wf = true := by decide
theorem witness_EncodeOfDecode :
    nextIs (match decode 0xFF65 with | .ok i => .next (if i = .loadRegs 0xF then State.reset else ready 0)
                                     | .error _ => .refused (.keyIndex 0)) (fun t => t.mem = []) := by decide

/-- A word under each mask that `DecodesAs` is stated for, at the last value of its fields. -/
theorem witness_DecodesAs :
    0x00E0#16 &&& 0xFFFF#16 = 0x00E0#16 ∧ 0xDFFF#16 &&& 0xF000#16 = 0xD000#16 ∧
    0x8FFE#16 &&& 0xF00F#16 = 0x800E#16 ∧ 0xFF65#16 &&& 0xF0FF#16 = 0xF065#16 := by decide

theorem witness_StepRunsTheDecodedInstruction :
    (ready 0xD125).Running ∧ (ready 0xD125).pc.toNat + 1 < (ready 0xD125).cfg.memSize ∧
    decodeTableWord 16 (((ready 0xD125).byte 0x200).toNat * 0x100 + ((ready 0xD125).byte 0x201).toNat) =
      some (.drw 1 2 5) := by decide
theorem witness_CompletedCycleBookkeeping : State.reset.fail = .ok := by decide
theorem witness_FaultedCycleDoesNoBookkeeping : (State.reset.raise .stackOverflow).fail ≠ .ok := by decide
theorem witness_TimerRefresh_due : (⟨5, 10⟩ : Timer).value ≠ 0 ∧ (⟨5, 10⟩ : Timer).deadline ≤ 10 := by decide
theorem witness_TimerRefresh_stays : (⟨0, 3⟩ : Timer).value = 0 ∧ 9 < (⟨5, 10⟩ : Timer).deadline := by decide
theorem witness_UnexpectedWordFaults :
    (ready 0x5121).Running ∧ (ready 0x5121).pc.toNat + 1 < (ready 0x5121).cfg.memSize ∧
    nextIs (match decode ((ready 0x5121).byte 0x200 ++ (ready 0x5121).byte 0x201) with
      | .ok _ => .refused (.keyIndex 0) | .error _ => .next State.reset) (fun _ => true) := by decide
theorem witness_FetchOutOfRangeFaults :
    (State.reset.setPc 0xFFF).Running ∧
    (State.reset.setPc 0xFFF).cfg.memSize ≤ (State.reset.setPc 0xFFF).pc.toNat + 1 := by decide
theorem witness_NoStepUnlessOk : nextIs (step (ready 0x1200)) (fun t => t.pc = 0x200) := by decide
/-- A core that is ok under the default policy, and under REFUSE with another instruction and with a key index in
range. -/
theorem witness_EveryOkCycleCompletes :
    ((ready 0x1200).Ok ∧ ¬ ∃ x, (ready 0x1200).RefusedKeySkip x) ∧
    ((policy (ready 0x1200) .refuse).Ok ∧ ¬ ∃ x, (policy (ready 0x1200) .refuse).RefusedKeySkip x) ∧
    ((policy (withRegs (ready 0xE19E) [(1, 0x0F)]) .refuse).Ok ∧
      ¬ ∃ x, (policy (withRegs (ready 0xE19E) [(1, 0x0F)]) .refuse).RefusedKeySkip x) := by
  unfold State.RefusedKeySkip
  decide
/-- The first key index out of range, under REFUSE, in both instructions. -/
theorem witness_EveryOkCycleCompletes_refused :
    (policy (withRegs (ready 0xE19E) [(1, 0x10)]) .refuse).Ok ∧
    (policy (withRegs (ready 0xE19E) [(1, 0x10)]) .refuse).RefusedKeySkip 1 ∧
    (policy (withRegs (ready 0xE1A1) [(1, 0xFF)]) .refuse).Ok ∧
    (policy (withRegs (ready 0xE1A1) [(1, 0xFF)]) .refuse).RefusedKeySkip 1 := by
  unfold State.RefusedKeySkip
  decide
theorem witness_Keywait : waiting.Awaiting 2 := by decide
theorem witness_Keywait_release :
    waiting.Awaiting 2 ∧ nextIs (step waiting) (fun _ => true) ∧ waiting.kbdPrev ≠ 0 ∧ waiting.keypad.sample = 0 := by
  decide
theorem witness_Keywait_stays :
    (keys waiting [0x0004]).Awaiting 2 ∧ (keys waiting [0x0004]).keypad.sample ≠ 0 ∧
    nextIs (step (keys waiting [0x0004])) (fun t => t.halt = some 2) ∧
    nextIs (step { waiting with kbdPrev := 0 }) (fun t => t.halt = some 2) := by decide
theorem witness_RunStateChangesOnlyByKeywait :
    (ready 0xF20A).halt = none ∧ nextIs (step (ready 0xF20A)) (fun t => t.halt = some 2) ∧
    waiting.halt = some 2 ∧ nextIs (step waiting) (fun t => t.halt = none) ∧
    nextIs (step (keys waiting [1])) (fun t => t.halt = some 2) := by decide
theorem witness_StepKeepsInvariant : calling.Inv ∧ nextIs (step calling) (fun t => t.sp = 15) := by decide
theorem witness_TransactionsEstablishInvariant :
    LegalConfig defaultConfig ∧ calling.Inv ∧
    nextIs (transact (.reset [0, 0xE0]) calling) (fun t => t.fail = .ok) ∧
    nextIs (transact .doCycle calling) (fun t => t.pc = 0x208) ∧
    nextIs (transact .validate calling) (fun t => !t.frameUpdated) := by decide
theorem witness_InstructionFaultsArePrecise :
    State.reset.fail = .ok ∧ nextIs (exec .ret State.reset) (fun t => t.fail ≠ .ok) := by decide
/-- Each row of the table at the first operand value that faults, and at the last that does not. -/
theorem witness_FaultsAreExactlyTheTable :
    nextIs (exec (.sys 0x123) State.reset) (fun t => t.fail = .unexpectedOpcode) ∧
    nextIs (exec (.sys 0x123) (lenient State.reset)) (fun t => t.fail = .ok) ∧
    nextIs (exec .ret State.reset) (fun t => t.fail = .stackUnderflow) ∧
    nextIs (exec .ret returning) (fun t => t.fail = .ok) ∧
    nextIs (exec (.call 0) { State.reset with sp := 0 }) (fun t => t.fail = .stackOverflow) ∧
    nextIs (exec (.call 0) { State.reset with sp := 1 }) (fun t => t.fail = .ok) ∧
    nextIs (exec (.drw 0 0 5) (State.reset.setI 0xFFC)) (fun t => t.fail = .indexOutOfBounds) ∧
    nextIs (exec (.drw 0 0 4) (State.reset.setI 0xFFC)) (fun t => t.fail = .ok) ∧
    nextIs (exec (.drw 0 0 0) (State.reset.setI 0xFFFF)) (fun t => t.fail = .ok) ∧
    nextIs (exec (.ldB 0) (State.reset.setI 0xFFE)) (fun t => t.fail = .indexOutOfBounds) ∧
    nextIs (exec (.ldB 0) (State.reset.setI 0xFFD)) (fun t => t.fail = .ok) ∧
    nextIs (exec (.storeRegs 0xF) (State.reset.setI 0xFF1)) (fun t => t.fail = .indexOutOfBounds) ∧
    nextIs (exec (.storeRegs 0xF) (State.reset.setI 0xFF0)) (fun t => t.fail = .ok) ∧
    nextIs (exec (.loadRegs 0xF) (State.reset.setI 0xFF1)) (fun t => t.fail = .indexOutOfBounds) ∧
    nextIs (exec (.loadRegs 0xF) (State.reset.setI 0xFF0)) (fun t => t.fail = .ok) := by decide
theorem witness_SysIsNopOrFault :
    (0x0FFF#16 &&& 0xF000#16 = 0x0000#16 ∧ 0x0FFF#16 ≠ 0x00E0#16 ∧ 0x0FFF#16 ≠ 0x00EE#16) ∧
    (lenient State.reset).cfg.strictSys = false ∧ State.reset.cfg.strictSys = true := by decide
theorem witness_Ret :
    (returning.sp < returning.cfg.stackDepth ∧ returning.stack.length = returning.cfg.stackDepth) ∧
    State.reset.sp = State.reset.cfg.stackDepth := by decide
theorem witness_Call :
    (0 < ({ State.reset with sp := 1 } : State).sp ∧
      ({ State.reset with sp := 1 } : State).sp ≤ ({ State.reset with sp := 1 } : State).stack.length) ∧
    (0 < State.reset.sp ∧ State.reset.sp ≤ State.reset.stack.length) ∧
    ({ State.reset with sp := 0 } : State).sp = 0 := by decide
/-- Skips: the equal case, the unequal case, and the wrap of PC from 0xFFFE. -/
theorem witness_Skips :
    storing.reg 0 = 0x12 ∧ storing.reg 0 ≠ storing.reg 1 ∧ storing.reg 2 = storing.reg 3 ∧
    (State.reset.skipIf true).pc = 0x202 ∧ ((State.reset.setPc 0xFFFE).skipIf true).pc = 0 := by decide
/-- Destinations that are VF and that are not: 8XY4, 8XY5, 8XY7 and the shifts. -/
theorem witness_FlagProducers : (0xE : RegIx) ≠ 0xF ∧ (0 : RegIx) ≠ 0xF := by decide
theorem witness_Shifts :
    (storing.cfg.shiftProfile = .original ∧ (0x34 : Byte) = storing.reg 1) ∧
    ((modern storing).cfg.shiftProfile = .modern ∧ (0x12 : Byte) = (modern storing).reg 0) := by decide
theorem witness_Rnd : ({ State.reset with random := [0xB7] } : State).random = [0xB7] ∧ State.reset.random = [] := by
  decide
theorem witness_OnlyShiftsReadTheProfile :
    (∀ x y : RegIx, Instr.cls ≠ .shr x y ∧ Instr.cls ≠ .shl x y) ∧
    nextIs (exec .cls State.reset) (fun t => t.frameUpdated) ∧
    nextIs (exec (.shr 0 1) storing) (fun t => t.reg 0 = 0x1A) ∧
    nextIs (transact .doCycle calling) (fun t => t.pc = 0x208) := by decide
/-- The last I at which FX33 fits, and the first at which it does not. -/
theorem witness_LdB :
    Memory.wf State.reset.cfg State.reset.mem ∧
    (State.reset.setI 0xFFD).i.toNat + 2 < State.reset.cfg.memSize ∧
    State.reset.cfg.memSize ≤ (State.reset.setI 0xFFE).i.toNat + 2 := by decide
/-- The last I at which FX55 and FX65 fit for X = F, and the first at which they do not. -/
theorem witness_Blocks :
    Memory.wf storing.cfg storing.mem ∧
    (storing.setI 0xFF0).i.toNat + (0xF : RegIx).val < storing.cfg.memSize ∧
    storing.cfg.memSize ≤ (storing.setI 0xFF1).i.toNat + (0xF : RegIx).val ∧
    (5 : RegIx) ≤ 0xF ∧ (storing.setI 0xFFF).i.toNat + (0 : RegIx).val < storing.cfg.memSize := by decide
theorem witness_FetchSeesStores :
    Memory.wf storing.cfg storing.mem ∧ storing.i.toNat + 1 < storing.cfg.memSize ∧
    nextIs (exec (.storeRegs 1) storing) (fun t => (t.setPc storing.i).fetchWord = 0x1234) := by decide
/-- A sprite of four rows at the last I it fits, one row more at the same I, and a shaped framebuffer. -/
theorem witness_Drw :
    0 < (4 : Count).val ∧ (State.reset.setI 0xFFC).i.toNat + (4 : Count).val - 1 < State.reset.cfg.memSize ∧
    State.reset.cfg.memSize ≤ (State.reset.setI 0xFFC).i.toNat + (5 : Count).val - 1 ∧
    Framebuffer.Shaped State.reset.cfg.displayW State.reset.cfg.displayH State.reset.fb := by decide
/-- Glyph 0 at (0, 0) covers pixel (3, 1) and does not cover pixel (2, 1). -/
theorem witness_SpriteCovers : State.reset.SpriteCovers 0 0 5 3 1 ∧ ¬ State.reset.SpriteCovers 0 0 5 2 1 := by
  refine ⟨⟨by decide, by decide, 1, 3, by decide⟩, ?_⟩
  rintro ⟨-, -, r, b, hr, hb, hx, hy, hbit⟩
  obtain rfl : r = 1 := (Nat.zero_add r).symm.trans hy.symm
  obtain rfl : b = 2 := (Nat.zero_add b).symm.trans hx.symm
  exact absurd hbit (by decide)
/-- A screen on which the sprite collides at (3, 1), and one on which nothing is on. -/
theorem witness_DrwReportsCollision :
    ({ State.reset with fb := Framebuffer.flip State.reset.fb 3 1 } : State).pixel 3 1 = true ∧
    (∀ px py, State.reset.pixel px py = false) := by
  exact ⟨by decide, pixel_blankPixels 64 32⟩
theorem witness_DrwTwiceRestores :
    (ready 0xD125).Inv ∧ (1 : RegIx) ≠ 0xF ∧ (2 : RegIx) ≠ 0xF ∧ (ready 0xD125).fail = .ok ∧
    nextIs (exec (.drw 1 2 5) (ready 0xD125))
      (fun t => t.fail = .ok ∧ nextIs (exec (.drw 1 2 5) t) (fun u => u.reg 0xF = 1)) := by decide
theorem witness_CollisionIsABitmask : Framebuffer.Shaped 64 32 State.reset.fb ∧ 31 < 32 := by decide
/-- A key index in range, at both ends, and the first out of range under each policy. -/
theorem witness_KeySkips :
    (withRegs State.reset [(1, 0x0F)]).reg 1 = 0x0F ∧ 0x10 ≤ ((withRegs State.reset [(1, 0x10)]).reg 1).toNat ∧
    State.reset.cfg.keyIndexPolicy = .notPressed ∧
    (policy State.reset .lowNibble).cfg.keyIndexPolicy = .lowNibble ∧
    (policy State.reset .refuse).cfg.keyIndexPolicy = .refuse := by decide
theorem witness_StackMovesOnlyByCallAndRet :
    nextIs (step calling) (fun t => t.stack ≠ calling.stack ∧ t.sp < calling.sp) ∧
    nextIs (step returning) (fun t => returning.sp < t.sp) := by decide
theorem witness_OnlyStoresWriteMemory :
    nextIs (exec (.storeRegs 1) storing) (fun t => t.byte 0x300 ≠ storing.byte 0x300) := by decide
/-- Lengths 0, 1, the least and greatest that load in a small memory, and one more. -/
theorem witness_LoadValidation :
    ([] : List Byte).length = 0 ∧ ([1] : List Byte).length = 1 ∧
    (2 ≤ (List.replicate 100 (0 : Byte)).length ∧
      0x200 + (List.replicate 100 (0 : Byte)).length ≤ 0x264) ∧
    (2 ≤ (List.replicate 101 (0 : Byte)).length ∧ 0x264 < 0x200 + (List.replicate 101 (0 : Byte)).length) := by
  decide
theorem witness_Loads :
    (calling.resetWith [1]).fail ≠ .ok ∧ (calling.resetWith [0x12, 0]).fail = .ok := by decide
theorem witness_ResetIsIdempotent :
    nextIs (Host.Core.run core 2 (calling.resetWith [0x60, 0x05, 0x12, 0])) (fun t => t.reg 0 = 5) := by decide

end Sys2Proof.Tests
end

section
/-! PROOFS. Jumps and skips (41_control.md): how the words of their families decode, what each does to PC, and
the obligations O25 to O28. -/

namespace Sys2Proof.Machine

/-! ## Rows of the opcode map (R75) -/

section
variable {op mask pattern : Word}

theorem opFamily_of_match (h : op &&& mask = pattern) (hm : opFamily mask = BitVec.allOnes 4) :
    opFamily op = opFamily pattern := field_of_match h 12 4 hm

theorem opSub_of_match (h : op &&& mask = pattern) (hm : opSub mask = BitVec.allOnes 4) :
    opSub op = opSub pattern := field_of_match h 0 4 hm

theorem decode_jp (h : opFamily op = 0x1) : decode op = .ok (.jp (opNNN op)) := by
  simp [decode, h]

theorem decode_jpV0 (h : opFamily op = 0xB) : decode op = .ok (.jpV0 (opNNN op)) := by
  simp [decode, h]

theorem decode_seImm (h : opFamily op = 0x3) : decode op = .ok (.seImm (opX op) (opNN op)) := by
  simp [decode, h]

theorem decode_sneImm (h : opFamily op = 0x4) : decode op = .ok (.sneImm (opX op) (opNN op)) := by
  simp [decode, h]

theorem decode_seReg (h : opFamily op = 0x5) (hn : opSub op = 0) :
    decode op = .ok (.seReg (opX op) (opY op)) := by
  simp [decode, h, hn]

theorem decode_sneReg (h : opFamily op = 0x9) (hn : opSub op = 0) :
    decode op = .ok (.sneReg (opX op) (opY op)) := by
  simp [decode, h, hn]

end

/-! ## What the jumps and skips do to the state -/

section
variable (s : State)

theorem exec_jp (nnn : Addr) : exec (.jp nnn) s = .next (s.setPc (zext16 nnn)) := rfl

theorem exec_jpV0 (nnn : Addr) :
    exec (.jpV0 nnn) s = .next (s.setPc (zext16 nnn + byteToWord (s.reg 0))) := rfl

theorem exec_seImm (x : RegIx) (nn : Byte) : exec (.seImm x nn) s = .next (s.skipIf (s.reg x == nn)) := rfl

theorem exec_sneImm (x : RegIx) (nn : Byte) : exec (.sneImm x nn) s = .next (s.skipIf (s.reg x != nn)) := rfl

theorem exec_seReg (x y : RegIx) : exec (.seReg x y) s = .next (s.skipIf (s.reg x == s.reg y)) := rfl

theorem exec_sneReg (x y : RegIx) : exec (.sneReg x y) s = .next (s.skipIf (s.reg x != s.reg y)) := rfl

theorem frame_setPc (w : Word) : Frame { pc := True } s (s.setPc w) := by
  constructor <;> simp

/-- The largest sum is 0xFFF + 0xFF = 0x10FE, so the addition of BNNN never wraps (R119). -/
theorem zext16_add_byteToWord_toNat (nnn : Addr) (b : Byte) :
    (zext16 nnn + byteToWord b).toNat = nnn.toNat + b.toNat := by
  have hnnn := nnn.isLt
  have hb := b.isLt
  rw [BitVec.toNat_add_of_lt (by rw [zext16_toNat, byteToWord_toNat]; omega), zext16_toNat, byteToWord_toNat]

theorem skipIf_beq_pc_toNat (a b : Byte) :
    (s.skipIf (a == b)).pc.toNat = if a = b then (s.pc.toNat + 2) % 2 ^ 16 else s.pc.toNat := by
  simp only [skipIf_pc_toNat, beq_iff_eq]

theorem skipIf_bne_pc_toNat (a b : Byte) :
    (s.skipIf (a != b)).pc.toNat = if a = b then s.pc.toNat else (s.pc.toNat + 2) % 2 ^ 16 := by
  simp only [skipIf_pc_toNat, bne_iff_ne, ne_eq, ite_not]

end

/-! ## The obligations -/

/-- Settles O25: JP is one write of PC, and its row fixes the family nibble. -/
theorem jpSetsPc : Obligations.JpSetsPc :=
  ⟨fun _ h => decode_jp (opFamily_of_match h rfl),
    fun nnn s => ⟨_, exec_jp s nnn, zext16_toNat nnn, frame_setPc s _⟩⟩

/-- Settles O26: JP V0 is one write of PC, whose sum stays below 2^16. -/
theorem jpV0AddsV0 : Obligations.JpV0AddsV0 :=
  ⟨fun _ h => decode_jpV0 (opFamily_of_match h rfl),
    fun nnn s => ⟨_, exec_jpV0 s nnn, zext16_add_byteToWord_toNat nnn _, frame_setPc s _⟩⟩

/-- Settles O27: both immediate skips are `State.skipIf`, on equality and on its negation. -/
theorem immediateSkips : Obligations.ImmediateSkips :=
  ⟨fun _ h => decode_seImm (opFamily_of_match h rfl),
    fun _ h => decode_sneImm (opFamily_of_match h rfl),
    fun x nn s =>
      ⟨⟨_, exec_seImm s x nn, frame_skipIf s _, skipIf_beq_pc_toNat s _ _⟩,
        ⟨_, exec_sneImm s x nn, frame_skipIf s _, skipIf_bne_pc_toNat s _ _⟩⟩⟩

/-- Settles O28: both register skips are `State.skipIf`, and their rows fix the low nibble as well. -/
theorem registerSkips : Obligations.RegisterSkips :=
  ⟨fun _ h => decode_seReg (opFamily_of_match h rfl) (opSub_of_match h rfl),
    fun _ h => decode_sneReg (opFamily_of_match h rfl) (opSub_of_match h rfl),
    fun x y s =>
      ⟨⟨_, exec_seReg s x y, frame_skipIf s _, skipIf_beq_pc_toNat s _ _⟩,
        ⟨_, exec_sneReg s x y, frame_skipIf s _, skipIf_bne_pc_toNat s _ _⟩⟩⟩

end Sys2Proof.Machine
end

section
/-! PROOFS. Loads and additions of 42_alu.md, and the flag write to VF: the rows of families 6, 7 and 8, what a
data write followed by a flag write leaves in the registers, and the obligations O29, O30, O31, O33 and O36. -/

namespace Sys2Proof.Machine

/-! ## Rows of the opcode map (R75) -/

section
variable {op : Word}

theorem decode_ldImm (h : opFamily op = 0x6) : decode op = .ok (.ldImm (opX op) (opNN op)) := by
  simp [decode, h]

theorem decode_addImm (h : opFamily op = 0x7) : decode op = .ok (.addImm (opX op) (opNN op)) := by
  simp [decode, h]

theorem decode_family8 (h : opFamily op = 0x8) : decode op = decodeFamily8 op := by
  simp [decode, h]

theorem decode_ldReg (h : opFamily op = 0x8) (hn : opSub op = 0x0) :
    decode op = .ok (.ldReg (opX op) (opY op)) := by
  simp [decode_family8 h, decodeFamily8, hn]

theorem decode_addReg (h : opFamily op = 0x8) (hn : opSub op = 0x4) :
    decode op = .ok (.addReg (opX op) (opY op)) := by
  simp [decode_family8 h, decodeFamily8, hn]

end

/-! ## What the instructions do to the state -/

section
variable (s : State) (x y : RegIx)

theorem exec_ldImm (nn : Byte) : exec (.ldImm x nn) s = .next (s.setReg x nn) := rfl

theorem exec_addImm (nn : Byte) : exec (.addImm x nn) s = .next (s.setReg x (s.reg x + nn)) := rfl

theorem exec_ldReg : exec (.ldReg x y) s = .next (s.setReg x (s.reg y)) := rfl

theorem exec_addReg :
    exec (.addReg x y) s = .next (s.setRegFlag x (s.reg x + s.reg y) (addCarry (s.reg x) (s.reg y))) := rfl

theorem exec_sub :
    exec (.sub x y) s = .next (s.setRegFlag x (s.reg x - s.reg y) (noBorrow (s.reg x) (s.reg y))) := rfl

theorem exec_subn :
    exec (.subn x y) s = .next (s.setRegFlag x (s.reg y - s.reg x) (noBorrow (s.reg y) (s.reg x))) := rfl

theorem exec_shr :
    exec (.shr x y) s = .next (s.setRegFlag x (s.shiftSource x y >>> 1) (shrOut (s.shiftSource x y))) := rfl

theorem exec_shl :
    exec (.shl x y) s = .next (s.setRegFlag x (s.shiftSource x y <<< 1) (shlOut (s.shiftSource x y))) := rfl

end

/-! ## The data write and the flag write after it (R131, R133) -/

section
variable (s : State)

/-- The data write survives the flag write in every register but VF. -/
theorem reg_setRegFlag_self {x : RegIx} (b : Byte) (c : Bool) (hx : x ≠ vf) : (s.setRegFlag x b c).reg x = b :=
  (reg_setRegFlag_ne s b c hx).trans (if_pos rfl)

/-- With X = F both writes hit the same register. -/
theorem frame_setRegFlag_vf (b : Byte) (c : Bool) : Frame { regs := (· = vf) } s (s.setRegFlag vf b c) := by
  simpa only [or_self] using frame_setRegFlag s vf b c

theorem flagByte_addCarry (a b : Byte) :
    flagByte (addCarry a b) = if 0xFF < a.toNat + b.toNat then 0x01 else 0x00 := by
  simp only [flagByte, addCarry, decide_eq_true_eq]

variable {s} {i : Instr} {b : Byte} {c : Bool}

/-- A flag producer with X = F leaves its flag in VF, and nothing of its data result. -/
theorem flag_replaces_data (h : exec i s = .next (s.setRegFlag vf b c)) :
    ∃ t, exec i s = .next t ∧ t.reg vf = flagByte c ∧ Frame { regs := (· = vf) } s t :=
  ⟨_, h, reg_setRegFlag_vf s vf b c, frame_setRegFlag_vf s b c⟩

/-- A flag producer with any other X leaves its data result there. -/
theorem data_survives_flag {x : RegIx} (hx : x ≠ vf) (h : exec i s = .next (s.setRegFlag x b c)) :
    ∃ t, exec i s = .next t ∧ t.reg x = b :=
  ⟨_, h, reg_setRegFlag_self s b c hx⟩

end

/-! ## The obligations -/

/-- Settles O33: `State.setRegFlag` leaves the carry in VF for every X, and the sum in V[X] for every X but F;
both operands are read from the old state. -/
theorem addRegSumAndCarry : Obligations.AddRegSumAndCarry :=
  ⟨fun _ h => decode_addReg (opFamily_of_match h rfl) (opSub_of_match h rfl),
    fun x y s => ⟨_, exec_addReg s x y,
      fun hx => (congrArg BitVec.toNat (reg_setRegFlag_self s _ _ hx)).trans (BitVec.toNat_add ..),
      (reg_setRegFlag_vf s x _ _).trans (flagByte_addCarry _ _),
      frame_setRegFlag s x _ _⟩⟩

/-- Settles O36: all five flag producers end in `State.setRegFlag` of values read from the old state, so with X = F
the flag replaces the data result, and with Y = F the data result is of the old VF. -/
theorem flagOverwritesData : Obligations.FlagOverwritesData :=
  fun y s =>
    ⟨flag_replaces_data (exec_addReg s vf y), flag_replaces_data (exec_sub s vf y),
      flag_replaces_data (exec_subn s vf y), flag_replaces_data (exec_shr s vf y),
      flag_replaces_data (exec_shl s vf y),
      fun x hx =>
        ⟨data_survives_flag hx (exec_addReg s x vf), data_survives_flag hx (exec_sub s x vf),
          data_survives_flag hx (exec_subn s x vf), data_survives_flag hx (exec_shr s x vf),
          data_survives_flag hx (exec_shl s x vf)⟩⟩

/-- Settles O29: LD Vx, NN is one register write, and its row fixes the family nibble. -/
theorem ldImmWritesNN : Obligations.LdImmWritesNN :=
  ⟨fun _ h => decode_ldImm (opFamily_of_match h rfl),
    fun x nn s => ⟨_, exec_ldImm s x nn, reg_setReg_self s x nn, frame_setReg s x nn⟩⟩

/-- Settles O30: ADD Vx, NN is one register write, of a sum modulo 2^8, so VF stays unless it is V[X]. -/
theorem addImmWritesNoFlag : Obligations.AddImmWritesNoFlag :=
  ⟨fun _ h => decode_addImm (opFamily_of_match h rfl),
    fun x nn s => ⟨_, exec_addImm s x nn,
      (congrArg BitVec.toNat (reg_setReg_self s x _)).trans (BitVec.toNat_add ..), frame_setReg s x _⟩⟩

/-- Settles O31: LD Vx, Vy is one register write, and its row fixes the low nibble as well. -/
theorem ldRegCopies : Obligations.LdRegCopies :=
  ⟨fun _ h => decode_ldReg (opFamily_of_match h rfl) (opSub_of_match h rfl),
    fun x y s => ⟨_, exec_ldReg s x y, reg_setReg_self s x _, frame_setReg s x _⟩⟩

end Sys2Proof.Machine
end

section
/-! PROOFS. LD I and the block transfers of 43_index_memory.md: the rows of families A and F, the transfers on
either side of the range check, their frames, and the obligations O39, O42 and O43. -/

namespace Sys2Proof.Machine

/-! ## Rows of the opcode map (R75) -/

section
variable {op mask pattern : Word}

theorem opNN_of_match (h : op &&& mask = pattern) (hm : opNN mask = BitVec.allOnes 8) :
    opNN op = opNN pattern := field_of_match h 0 8 hm

theorem decode_ldI (h : opFamily op = 0xA) : decode op = .ok (.ldI (opNNN op)) := by
  simp [decode, h]

theorem decode_familyF (h : opFamily op = 0xF) : decode op = decodeFamilyF op := by
  simp [decode, h]

theorem decode_storeRegs (h : opFamily op = 0xF) (hn : opNN op = 0x55) :
    decode op = .ok (.storeRegs (opX op)) := by
  simp [decode_familyF h, decodeFamilyF, hn]

theorem decode_loadRegs (h : opFamily op = 0xF) (hn : opNN op = 0x65) :
    decode op = .ok (.loadRegs (opX op)) := by
  simp [decode_familyF h, decodeFamilyF, hn]

end

/-! ## What the instructions do to the state -/

section
variable (s : State) (x : RegIx)

theorem exec_ldI (nnn : Addr) : exec (.ldI nnn) s = .next (s.setI (zext16 nnn)) := rfl

/-- The range check of a block transfer looks at its last byte (R56). -/
theorem inRange_block_iff :
    s.inRange (s.dataAddr 0) (x.val + 1) = true ↔ s.i.toNat + x.val < s.cfg.memSize :=
  inRange_iff s s.i.toNat (x.val + 1)

variable {s x}

theorem exec_storeRegs_of_lt (h : s.i.toNat + x.val < s.cfg.memSize) :
    exec (.storeRegs x) s = .next ((s.writeBytes s.i.toNat (s.regsThrough x)).advanceI x) :=
  if_pos ((inRange_block_iff s x).mpr h)

theorem exec_storeRegs_of_le (h : s.cfg.memSize ≤ s.i.toNat + x.val) :
    exec (.storeRegs x) s = .next { s with fail := .indexOutOfBounds } :=
  if_neg (mt (inRange_block_iff s x).mp h.not_gt)

theorem exec_loadRegs_of_lt (h : s.i.toNat + x.val < s.cfg.memSize) :
    exec (.loadRegs x) s = .next ((s.loadRegsFrom s.i.toNat x).advanceI x) :=
  if_pos ((inRange_block_iff s x).mpr h)

theorem exec_loadRegs_of_le (h : s.cfg.memSize ≤ s.i.toNat + x.val) :
    exec (.loadRegs x) s = .next { s with fail := .indexOutOfBounds } :=
  if_neg (mt (inRange_block_iff s x).mp h.not_gt)

end

/-! ## The index register after a transfer, and the block it moved -/

section
variable (s : State) (x : RegIx)

theorem frame_setI (w : Word) : Frame { index := True } s (s.setI w) := by
  constructor <;> simp

/-- The post-increment adds the index register to a footprint, and nothing else. -/
theorem Frame.advanceI {f : Footprint} {s t : State} (h : Frame f s t) (x : RegIx) :
    Frame { f with index := True } s (t.advanceI x) :=
  { h with index := fun hn => absurd trivial hn }

/-- The post-increment wraps modulo 2^16 (R166, R167). -/
theorem advanceI_i_toNat : (s.advanceI x).i.toNat = (s.i.toNat + x.val + 1) % 2 ^ 16 := by
  rw [advanceI_i, BitVec.toNat_add, BitVec.toNat_ofNat, Nat.add_mod_mod, Nat.add_assoc]

theorem frame_storeBlock (a : Nat) :
    Frame { bytes := Span a (x.val + 1) } s (s.writeBytes a (s.regsThrough x)) :=
  regsThrough_length s x ▸ frame_writeBytes s a (s.regsThrough x)

theorem frame_loadRegsFrom (a : Nat) : Frame { regs := (· ≤ x) } s (s.loadRegsFrom a x) := by
  constructor
  case regs => exact fun r h => (reg_loadRegsFrom s a x r).trans (if_neg h)
  all_goals simp

variable {s x}

/-- Byte r of a stored block is V[r]. -/
theorem byte_storeBlock (hm : Memory.wf s.cfg s.mem) (a : Nat) {r : RegIx} (h : r ≤ x) :
    (s.writeBytes a (s.regsThrough x)).byte (a + r.val) = s.reg r := by
  have hr : r.val < (s.regsThrough x).length := by
    rw [regsThrough_length]
    exact Nat.lt_succ_of_le h
  rw [byte_writeBytes_inside s a _ hm hr, regsThrough_getElem]

end

/-! ## The obligations -/

/-- Settles O42: in range, LD [I], Vx is a run of byte writes and then the post-increment, which keeps the bytes;
out of range it is the fault alone. -/
theorem storeRegsStoresBlock : Obligations.StoreRegsStoresBlock :=
  ⟨fun _ h => decode_storeRegs (opFamily_of_match h rfl) (opNN_of_match h rfl),
    fun x s =>
      ⟨fun hm hlt => ⟨_, exec_storeRegs_of_lt hlt,
          fun _ hr => byte_storeBlock hm s.i.toNat hr,
          (advanceI_i_toNat _ x).trans (by rw [writeBytes_i]),
          (frame_storeBlock s x s.i.toNat).advanceI x⟩,
        exec_storeRegs_of_le⟩⟩

/-- Settles O43: in range, LD Vx, [I] is the block load and then the post-increment, which keeps the registers; out
of range it is the fault alone. -/
theorem loadRegsLoadsBlock : Obligations.LoadRegsLoadsBlock :=
  ⟨fun _ h => decode_loadRegs (opFamily_of_match h rfl) (opNN_of_match h rfl),
    fun x s =>
      ⟨fun hlt => ⟨_, exec_loadRegs_of_lt hlt,
          fun r hr => (reg_loadRegsFrom s s.i.toNat x r).trans (if_pos hr),
          advanceI_i_toNat _ x,
          (frame_loadRegsFrom s x s.i.toNat).advanceI x⟩,
        exec_loadRegs_of_le⟩⟩

/-- Settles O39: LD I is one write of I, and its row fixes the family nibble. -/
theorem ldISetsIndex : Obligations.LdISetsIndex :=
  ⟨fun _ h => decode_ldI (opFamily_of_match h rfl),
    fun nnn s => ⟨_, exec_ldI s nnn, zext16_toNat nnn, frame_setI s _⟩⟩

end Sys2Proof.Machine
end

section
/-! PROOFS. CLS of 44_display.md: the row that fixes a whole word, a framebuffer write followed by its invalidation,
and the obligation O45. -/

namespace Sys2Proof.Machine

/-! ## Rows of the opcode map (R75) -/

/-- A row whose mask keeps every bit matches one word only. -/
theorem eq_of_match {op mask pattern : Word} (h : op &&& mask = pattern) (hm : mask = BitVec.allOnes 16) :
    op = pattern := by
  rw [← h, hm, BitVec.and_allOnes]

theorem decode_cls {op : Word} (h : op = 0x00E0) : decode op = .ok .cls := by
  rw [h]
  rfl

/-! ## What the instruction does to the state -/

section
variable (s : State)

theorem exec_cls :
    exec .cls s = .next ((s.setFb (blankPixels s.cfg.displayW s.cfg.displayH)).invalidate .whole) := rfl

@[simp] theorem setFb_pixel (f : Framebuffer) (px py : Nat) : (s.setFb f).pixel px py = f.pixel px py := rfl

/-- Writing the framebuffer and invalidating changes the display alone, VF included among what stays. -/
theorem frame_setFb_invalidate (f : Framebuffer) (r : Invalidation) :
    Frame { display := True } s ((s.setFb f).invalidate r) := by
  constructor <;> simp

end

/-! ## The obligation -/

/-- Settles O45: CLS writes the blank framebuffer, which has the display's shape and no pixel on, and invalidates
the whole of it; its row fixes every bit of the word. -/
theorem clsClearsTheDisplay : Obligations.ClsClearsTheDisplay := by
  refine ⟨fun op h => decode_cls (eq_of_match h rfl), fun s => ⟨_, exec_cls s, fun px py => ?_, ?_, ?_, ?_, ?_⟩⟩
  · rw [invalidate_pixel, setFb_pixel, pixel_blankPixels]
  · exact blankPixels_shaped s.cfg.displayW s.cfg.displayH
  · exact invalidate_invalidated _ _
  · exact invalidate_frameUpdated _ _
  · exact frame_setFb_invalidate s _ _

end Sys2Proof.Machine
end

section
/-! PROOFS. Reading the delay timer and the key-wait of 45_timers_keys.md: the rows of FX07 and FX0A, what each
instruction and each cycle leaves in HALT, and the obligations O16, O52 and O54. -/

namespace Sys2Proof.Machine

/-! ## Rows of the opcode map (R75) -/

section
variable {op : Word}

theorem decode_ldVxDt (h : opFamily op = 0xF) (hn : opNN op = 0x07) : decode op = .ok (.ldVxDt (opX op)) := by
  simp [decode_familyF h, decodeFamilyF, hn]

theorem decode_ldVxK (h : opFamily op = 0xF) (hn : opNN op = 0x0A) : decode op = .ok (.ldVxK (opX op)) := by
  simp [decode_familyF h, decodeFamilyF, hn]

end

/-! ## What the two instructions do to the state -/

section
variable (s : State) (x : RegIx)

theorem exec_ldVxDt : exec (.ldVxDt x) s = .next (s.setReg x s.delay.value) := rfl

theorem exec_ldVxK : exec (.ldVxK x) s = .next (s.setHalt (some x)) := rfl

theorem frame_setHalt (h : Option RegIx) : Frame { halt := True } s (s.setHalt h) := by
  constructor <;> simp

end

/-! ## HALT through an instruction -/

section
variable {s t u v : State}

/-- A meaning of one outcome keeps HALT when its next state does. -/
theorem halt_eq_of_next (h : (.next u : Result) = .next t) (hu : u.halt = s.halt) : t.halt = s.halt :=
  Host.Outcome.next.inj h ▸ hu

/-- A meaning of two outcomes under a condition keeps HALT when both next states do. -/
theorem halt_eq_of_ite {c : Prop} [Decidable c] (h : (if c then .next u else .next v : Result) = .next t)
    (hu : u.halt = s.halt) (hv : v.halt = s.halt) : t.halt = s.halt := by
  split at h
  · exact halt_eq_of_next h hu
  · exact halt_eq_of_next h hv

/-- A key skip that is not refused moves PC or does nothing (R201, R202). -/
theorem exists_skipIf_of_keySkip {i : Instr} {x : RegIx} (hi : i = .skp x ∨ i = .sknp x)
    (h : exec i s = .next t) : ∃ c, t = s.skipIf c := by
  obtain rfl | rfl := hi <;> simp only [exec, execSkp, execSknp] at h <;> split at h
  · exact ⟨_, (Host.Outcome.next.inj h).symm⟩
  · nomatch h
  · exact ⟨_, (Host.Outcome.next.inj h).symm⟩
  · nomatch h

theorem halt_eq_of_keySkip {i : Instr} {x : RegIx} (hi : i = .skp x ∨ i = .sknp x)
    (h : exec i s = .next t) : t.halt = s.halt := by
  obtain ⟨c, rfl⟩ := exists_skipIf_of_keySkip hi h
  exact skipIf_halt s c

/-- Only FX0A writes HALT (R220). -/
theorem exec_halt_eq {i : Instr} (hi : ∀ x, i ≠ .ldVxK x) (h : exec i s = .next t) : t.halt = s.halt := by
  cases i with
  | ldVxK x => exact absurd rfl (hi x)
  | sys nnn => exact halt_eq_of_ite h (raise_halt s _) rfl
  | ret => exact halt_eq_of_ite h (raise_halt s _) rfl
  | call nnn => exact halt_eq_of_ite h (raise_halt s _) rfl
  | ldB x => exact halt_eq_of_ite h (writeBytes_halt s _ _) (raise_halt s _)
  | storeRegs x => exact halt_eq_of_ite h (writeBytes_halt s _ _) (raise_halt s _)
  | loadRegs x => exact halt_eq_of_ite h (loadRegsFrom_halt s (s.dataAddr 0) x) (raise_halt s _)
  | skp x => exact halt_eq_of_keySkip (.inl rfl) h
  | sknp x => exact halt_eq_of_keySkip (.inr rfl) h
  | drw x y n =>
    simp only [exec, execDrw] at h
    split at h
    · exact halt_eq_of_next h (setFlag_halt s _)
    · exact halt_eq_of_ite h (by simp) (raise_halt s _)
  | seImm | sneImm | seReg | sneReg => exact halt_eq_of_next h (skipIf_halt s _)
  | _ => exact halt_eq_of_next h rfl

/-- An instruction that ends AWAITING_KEY when it began RUNNING is FX0A, naming the register HALT takes. -/
theorem eq_ldVxK_of_exec {i : Instr} {r : RegIx} (hs : s.halt = none) (h : exec i s = .next t)
    (ht : t.halt = some r) : i = .ldVxK r := by
  by_cases hi : ∃ x, i = .ldVxK x
  · obtain ⟨x, rfl⟩ := hi
    have hx : (s.setHalt (some x)).halt = some r := (Host.Outcome.next.inj h) ▸ ht
    exact congrArg Instr.ldVxK (Option.some.inj hx)
  · rw [exec_halt_eq (not_exists.mp hi) h, hs] at ht
    nomatch ht

end

/-! ## HALT through a cycle -/

section
variable {s t : State} {r : RegIx}

@[simp] theorem finish_halt (s : State) (cost : Nat) : (s.finish cost).halt = s.halt := by
  unfold State.finish
  split <;> rfl

/-- A running core's cycle that ends AWAITING_KEY has fetched FX0A: the faulting cycles keep HALT. -/
theorem decode_of_step_halts (h : step s = .next t) (hs : s.halt = none) (ht : t.halt = some r) :
    decode s.fetchWord = .ok (.ldVxK r) := by
  obtain ⟨-, ⟨q, hq, -⟩ | ⟨-, -, rfl⟩ | ⟨-, -, -, rfl⟩ | ⟨-, -, i, u, hd, hu, rfl⟩⟩ := step_next_cases h
  · simp [hs] at hq
  · simp [hs] at ht
  · simp [hs] at ht
  · rw [finish_halt] at ht
    rw [hd, eq_ldVxK_of_exec (by simpa using hs) hu ht]

/-- A waiting core's cycle ends with HALT as it was, or is the release of R222. -/
theorem step_awaiting_halt (h : step s = .next t) (hs : s.halt = some r) :
    (s.kbdPrev ≠ 0 ∧ t.kbd = 0 ∧ t.halt = none) ∨ t.halt = some r := by
  rw [step_awaiting ⟨(step_next_cases h).1, hs⟩] at h
  obtain rfl := Host.Outcome.next.inj h
  obtain ⟨hprev, hkbd, hk⟩ | ⟨-, hk⟩ := keywait_cases s.sampleKeys r <;> rw [hk]
  · exact .inl ⟨hprev, hkbd, rfl⟩
  · exact .inr hs

end

/-! ## The obligations -/

/-- Settles O16: among the cycles of a running core only one that executes FX0A writes HALT, and a waiting core's
key-wait releases or keeps it. -/
theorem runStateChangesOnlyByKeywait : Obligations.RunStateChangesOnlyByKeywait := by
  refine fun s t h => ⟨fun r => decode_of_step_halts h, fun r hs ht => ?_, fun r q hs ht => ?_⟩
  · obtain ⟨hprev, hkbd, -⟩ | hstay := step_awaiting_halt h hs
    · exact ⟨hprev, hkbd⟩
    · simp [ht] at hstay
  · obtain ⟨-, -, hrel⟩ | hstay := step_awaiting_halt h hs
    · simp [ht] at hrel
    · exact Option.some.inj (ht.symm.trans hstay)

/-- Settles O52: LD Vx, DT is one register write of the delay timer's value, and its row fixes the low byte. -/
theorem ldVxDtReadsTheTimer : Obligations.LdVxDtReadsTheTimer :=
  ⟨fun _ h => decode_ldVxDt (opFamily_of_match h rfl) (opNN_of_match h rfl),
    fun x s => ⟨_, exec_ldVxDt s x, reg_setReg_self s x _, frame_setReg s x _⟩⟩

/-- Settles O54: LD Vx, K is one write of HALT, and its row fixes the low byte. -/
theorem ldVxKHalts : Obligations.LdVxKHalts :=
  ⟨fun _ h => decode_ldVxK (opFamily_of_match h rfl) (opNN_of_match h rfl),
    fun x s => ⟨_, exec_ldVxK s x, setHalt_halt s _, frame_setHalt s _⟩⟩

end Sys2Proof.Machine
end

section
/-! PROOFS. Reset (70_reset_and_hazards.md): the load's validation case by case, that no cycle writes the
configuration, that a reset reads nothing else of what MEM, V, PC and FAIL take, and the obligations O57 and O60. -/

namespace Sys2Proof.Machine

/-! ## The load's validation (R262) -/

section
variable {cfg : Config} {len : Nat}

theorem validateLoad_zero (h : len = 0) : validateLoad cfg len = .noProgram := if_pos h

theorem validateLoad_one (h : len = 1) : validateLoad cfg len = .programTooSmall := by
  simp [validateLoad, h]

/-- From two bytes on, only the space above PROG_START counts. -/
theorem validateLoad_of_two_le (h : 2 ≤ len) :
    validateLoad cfg len = if cfg.memSize - progStart < len then .programTooLarge else .ok := by
  rw [validateLoad, if_neg (by omega), if_neg (by omega)]

theorem validateLoad_of_lt (h : 2 ≤ len) (hlt : cfg.memSize < 0x200 + len) :
    validateLoad cfg len = .programTooLarge := by
  rw [validateLoad_of_two_le h, if_pos (by rw [progStart]; omega)]

theorem validateLoad_of_le (h : 2 ≤ len) (hle : 0x200 + len ≤ cfg.memSize) : validateLoad cfg len = .ok := by
  rw [validateLoad_of_two_le h, if_neg (by rw [progStart]; omega)]

end

/-! ## The configuration through an instruction and a cycle (R267) -/

/-- If the outcome is a next state, it has the configuration of s. -/
def KeepsConfig (s : State) (o : Result) : Prop := ∀ t, o = .next t → t.cfg = s.cfg

section
variable {s u : State} {a b : Result}

theorem KeepsConfig.next (h : u.cfg = s.cfg) : KeepsConfig s (.next u) :=
  fun _ ht => Host.Outcome.next.inj ht ▸ h

theorem KeepsConfig.ite {c : Prop} [Decidable c] (ha : KeepsConfig s a) (hb : KeepsConfig s b) :
    KeepsConfig s (if c then a else b) := by
  split
  · exact ha
  · exact hb

theorem keepsConfig_keySkip {i : Instr} {x : RegIx} (hi : i = .skp x ∨ i = .sknp x) :
    KeepsConfig s (exec i s) := fun t h => by
  obtain ⟨c, rfl⟩ := exists_skipIf_of_keySkip hi h
  exact skipIf_cfg s c

theorem keepsConfig_exec (i : Instr) (s : State) : KeepsConfig s (exec i s) := by
  cases i with
  | sys nnn => exact .ite (.next (raise_cfg s _)) (.next rfl)
  | ret => exact .ite (.next (raise_cfg s _)) (.next rfl)
  | call nnn => exact .ite (.next (raise_cfg s _)) (.next rfl)
  | drw x y n => exact .ite (.next (setFlag_cfg s _)) (.ite (.next rfl) (.next (raise_cfg s _)))
  | ldB x => exact .ite (.next (writeBytes_cfg s _ _)) (.next (raise_cfg s _))
  | storeRegs x => exact .ite (.next (writeBytes_cfg s _ _)) (.next (raise_cfg s _))
  | loadRegs x => exact .ite (.next (loadRegsFrom_cfg s (s.dataAddr 0) x)) (.next (raise_cfg s _))
  | skp x => exact keepsConfig_keySkip (.inl rfl)
  | sknp x => exact keepsConfig_keySkip (.inr rfl)
  | seImm | sneImm | seReg | sneReg => exact .next (skipIf_cfg s _)
  | _ => exact .next rfl

end

section
variable {s t : State}

theorem keywait_cfg (s : State) (r : RegIx) : (s.keywait r).cfg = s.cfg := by
  obtain ⟨-, -, h⟩ | ⟨-, h⟩ := keywait_cases s r <;> rw [h]
  rfl

theorem finish_cfg (s : State) (cost : Nat) : (s.finish cost).cfg = s.cfg := by
  unfold State.finish
  split <;> rfl

/-- A cycle keeps the configuration: a waiting core's, one of the two faulting ones, and one that executes. -/
theorem step_cfg (h : step s = .next t) : t.cfg = s.cfg := by
  obtain ⟨-, ⟨r, -, rfl⟩ | ⟨-, -, rfl⟩ | ⟨-, -, -, rfl⟩ | ⟨-, -, i, u, -, hu, rfl⟩⟩ := step_next_cases h
  · exact keywait_cfg s.sampleKeys r
  · rfl
  · rfl
  · exact (finish_cfg u _).trans (keepsConfig_exec i s.sampleKeys.afterFetch u hu)

/-- Stated for any core: a run unfolds over its own state type, of which `State` is an instance. -/
theorem run_succ {M : Host.Core} {n : Nat} {s t : M.State} (h : M.run (n + 1) s = .next t) :
    ∃ u, M.step s = .next u ∧ M.run n u = .next t := by
  unfold Host.Core.run at h
  split at h
  · next u hu => exact ⟨u, hu, h⟩
  · nomatch h
  · nomatch h

theorem run_cfg {n : Nat} (h : Host.Core.run core n s = .next t) : t.cfg = s.cfg := by
  induction n generalizing s with
  | zero => exact Host.Outcome.next.inj h ▸ rfl
  | succ n ih =>
    obtain ⟨u, hu, hrun⟩ := run_succ h
    exact (ih hrun).trans (step_cfg hu)

end

/-! ## What a reset leaves (R41, R51) -/

section
variable (s : State) (p : List Byte)

theorem resetWith_v : (s.resetWith p).v = Vector.replicate 16 0 := by
  simp only [State.resetWith]
  split <;> simp

theorem resetWith_pc : (s.resetWith p).pc = 0x200 := by
  simp only [State.resetWith]
  split <;> simp [progStart]

variable {s} {t : State}

/-- The memory after a run of stores depends on the memory before and, for the canonical form, the
configuration. -/
theorem writeBytes_mem_congr (hcfg : t.cfg = s.cfg) (hmem : t.mem = s.mem) (a : Nat) (bs : List Byte) :
    (t.writeBytes a bs).mem = (s.writeBytes a bs).mem := by
  induction bs generalizing s t a with
  | nil => exact hmem
  | cons b bs ih =>
    refine ih (s := s.setByte a b) (t := t.setByte a b) hcfg ?_ (a + 1)
    rw [setByte_mem, setByte_mem, hcfg, hmem]

/-- The memory a reset leaves depends on the program and the configuration alone: the image starts from no
listed byte (R51). -/
theorem resetWith_mem_congr (hcfg : t.cfg = s.cfg) : (t.resetWith p).mem = (s.resetWith p).mem := by
  simp only [State.resetWith, hcfg]
  split
  · refine writeBytes_mem_congr ?_ ?_ progStart p <;> rfl
  · rfl

end

/-! ## The obligations -/

/-- Settles O57: FAIL after a reset is the validation's answer, whose four cases follow its order. -/
theorem loadValidation : Obligations.LoadValidation := by
  intro s p
  rw [resetWith_fail]
  exact ⟨validateLoad_zero, validateLoad_one, validateLoad_of_lt, validateLoad_of_le⟩

/-- Settles O60: no cycle and no reset writes the configuration, and what a reset leaves in MEM, V, PC and FAIL
depends on the program and the configuration alone. -/
theorem resetIsIdempotent : Obligations.ResetIsIdempotent := by
  intro s t p n h
  have hcfg : t.cfg = s.cfg := (run_cfg h).trans (resetWith_cfg s p)
  refine ⟨resetWith_mem_congr p hcfg, ?_, ?_, ?_, resetWith_mem_congr p (resetWith_cfg s p)⟩
  · rw [resetWith_v, resetWith_v]
  · rw [resetWith_pc, resetWith_pc]
  · rw [resetWith_fail, resetWith_fail, hcfg]

end Sys2Proof.Machine
end

section
/-! PROOFS. The decoder as a whole (30_encoding.md): the rows of the opcode map not stated yet, that encoding and
decoding undo each other, the words that spell no instruction, and the obligations O1 to O4. -/

namespace Sys2Proof.Machine

/-! ## Rows of the opcode map (R75) -/

section
variable {op : Word}

theorem decode_ret (h : op = 0x00EE) : decode op = .ok .ret := by
  rw [h]
  rfl

/-- Every word of family 0 but CLS's and RET's is SYS (R78). -/
theorem decode_sys (h : opFamily op = 0x0) (hcls : op ≠ 0x00E0#16) (hret : op ≠ 0x00EE#16) :
    decode op = .ok (.sys (opNNN op)) := by
  simp [decode, h, decodeFamily0, hcls, hret]

theorem decode_call (h : opFamily op = 0x2) : decode op = .ok (.call (opNNN op)) := by
  simp [decode, h]

theorem decode_rnd (h : opFamily op = 0xC) : decode op = .ok (.rnd (opX op) (opNN op)) := by
  simp [decode, h]

theorem decode_drw (h : opFamily op = 0xD) : decode op = .ok (.drw (opX op) (opY op) (opN op)) := by
  simp [decode, h]

theorem decode_orReg (h : opFamily op = 0x8) (hn : opSub op = 0x1) :
    decode op = .ok (.orReg (opX op) (opY op)) := by
  simp [decode_family8 h, decodeFamily8, hn]

theorem decode_andReg (h : opFamily op = 0x8) (hn : opSub op = 0x2) :
    decode op = .ok (.andReg (opX op) (opY op)) := by
  simp [decode_family8 h, decodeFamily8, hn]

theorem decode_xorReg (h : opFamily op = 0x8) (hn : opSub op = 0x3) :
    decode op = .ok (.xorReg (opX op) (opY op)) := by
  simp [decode_family8 h, decodeFamily8, hn]

theorem decode_sub (h : opFamily op = 0x8) (hn : opSub op = 0x5) :
    decode op = .ok (.sub (opX op) (opY op)) := by
  simp [decode_family8 h, decodeFamily8, hn]

theorem decode_shr (h : opFamily op = 0x8) (hn : opSub op = 0x6) :
    decode op = .ok (.shr (opX op) (opY op)) := by
  simp [decode_family8 h, decodeFamily8, hn]

theorem decode_subn (h : opFamily op = 0x8) (hn : opSub op = 0x7) :
    decode op = .ok (.subn (opX op) (opY op)) := by
  simp [decode_family8 h, decodeFamily8, hn]

theorem decode_shl (h : opFamily op = 0x8) (hn : opSub op = 0xE) :
    decode op = .ok (.shl (opX op) (opY op)) := by
  simp [decode_family8 h, decodeFamily8, hn]

theorem decode_familyE (h : opFamily op = 0xE) : decode op = decodeFamilyE op := by
  simp [decode, h]

theorem decode_skp (h : opFamily op = 0xE) (hn : opNN op = 0x9E) : decode op = .ok (.skp (opX op)) := by
  simp [decode_familyE h, decodeFamilyE, hn]

theorem decode_sknp (h : opFamily op = 0xE) (hn : opNN op = 0xA1) : decode op = .ok (.sknp (opX op)) := by
  simp [decode_familyE h, decodeFamilyE, hn]

theorem decode_ldDtVx (h : opFamily op = 0xF) (hn : opNN op = 0x15) : decode op = .ok (.ldDtVx (opX op)) := by
  simp [decode_familyF h, decodeFamilyF, hn]

theorem decode_ldStVx (h : opFamily op = 0xF) (hn : opNN op = 0x18) : decode op = .ok (.ldStVx (opX op)) := by
  simp [decode_familyF h, decodeFamilyF, hn]

theorem decode_addI (h : opFamily op = 0xF) (hn : opNN op = 0x1E) : decode op = .ok (.addI (opX op)) := by
  simp [decode_familyF h, decodeFamilyF, hn]

theorem decode_ldF (h : opFamily op = 0xF) (hn : opNN op = 0x29) : decode op = .ok (.ldF (opX op)) := by
  simp [decode_familyF h, decodeFamilyF, hn]

theorem decode_ldB (h : opFamily op = 0xF) (hn : opNN op = 0x33) : decode op = .ok (.ldB (opX op)) := by
  simp [decode_familyF h, decodeFamilyF, hn]

end

/-! ## Encoding, then decoding -/

/-- SYS of an address other than 0E0 and 0EE keeps clear of the words of CLS and RET. -/
theorem decode_encode_sys {nnn : Addr} (hcls : nnn ≠ 0x0E0#12) (hret : nnn ≠ 0x0EE#12) :
    decode (encode (.sys nnn)) = .ok (.sys nnn) := by
  have haddr {a : Addr} (h : nnn ≠ a) : encNNN 0x0#4 nnn ≠ encNNN 0x0#4 a := fun he =>
    h (by simpa using congrArg opNNN he)
  have hd := decode_sys (opFamily_encNNN 0x0#4 nnn) (haddr hcls) (haddr hret)
  rwa [opNNN_encNNN] at hd

/-! ## Decoding, then encoding -/

/-- The instruction is well formed and the word is its encoding. -/
def Spells (op : Word) (i : Instr) : Prop := i.wf = true ∧ encode i = op

section
variable {op : Word} {f n : BitVec 4} {nn : Byte} {i j : Instr}

theorem encNNN_of_family (hf : (opFamily op).toNat = f.toNat) : encNNN f (opNNN op) = op := by
  rw [← BitVec.eq_of_toNat_eq hf, encNNN_fields]

theorem encXNN_of_family (hf : (opFamily op).toNat = f.toNat) : encXNN f (opX op) (opNN op) = op := by
  rw [← BitVec.eq_of_toNat_eq hf, encXNN_fields]

theorem encX_of_fields (hf : (opFamily op).toNat = f.toNat) (hn : (opNN op).toNat = nn.toNat) :
    encXNN f (opX op) nn = op := by
  rw [← BitVec.eq_of_toNat_eq hn, encXNN_of_family hf]

theorem encXYN_of_family (hf : (opFamily op).toNat = f.toNat) : encXYN f (opX op) (opY op) (opSub op) = op := by
  rw [← BitVec.eq_of_toNat_eq hf, encXYN_fields]

theorem encXY_of_fields (hf : (opFamily op).toNat = f.toNat) (hn : (opSub op).toNat = n.toNat) :
    encXYN f (opX op) (opY op) n = op := by
  rw [← BitVec.eq_of_toNat_eq hn, encXYN_of_family hf]

theorem spells_decodeFamily0 (hf : (opFamily op).toNat = 0x0) : Spells op (decodeFamily0 op) := by
  have henc : encNNN 0x0#4 (opNNN op) = op := encNNN_of_family hf
  unfold decodeFamily0
  split_ifs with hcls hret
  · exact ⟨rfl, hcls.symm⟩
  · exact ⟨rfl, hret.symm⟩
  · refine ⟨?_, henc⟩
    have haddr {a : Addr} (h : op ≠ encNNN 0x0#4 a) : opNNN op ≠ a := fun he => h (by rw [← he, henc])
    simpa [Instr.wf] using And.intro (haddr (a := 0x0E0#12) hcls) (haddr (a := 0x0EE#12) hret)

theorem spells_decodeFamily8 (hf : (opFamily op).toNat = 0x8) (h : decodeFamily8 op = .ok i) : Spells op i := by
  unfold decodeFamily8 at h
  split at h
  case h_10 => nomatch h
  all_goals
    obtain rfl := Except.ok.inj h
    exact ⟨rfl, encXY_of_fields hf ‹_›⟩

theorem spells_decodeFamilyE (hf : (opFamily op).toNat = 0xE) (h : decodeFamilyE op = .ok i) : Spells op i := by
  unfold decodeFamilyE at h
  split at h
  case h_3 => nomatch h
  all_goals
    obtain rfl := Except.ok.inj h
    exact ⟨rfl, encX_of_fields hf ‹_›⟩

theorem spells_decodeFamilyF (hf : (opFamily op).toNat = 0xF) (h : decodeFamilyF op = .ok i) : Spells op i := by
  unfold decodeFamilyF at h
  split at h
  case h_10 => nomatch h
  all_goals
    obtain rfl := Except.ok.inj h
    exact ⟨rfl, encX_of_fields hf ‹_›⟩

end

/-! ## The words that spell no instruction (R77) -/

section
variable (op : Word)

theorem opFamily_toNat : (opFamily op).toNat = op.toNat / 0x1000 := by
  have := op.isLt
  simp only [opFamily, BitVec.extractLsb'_toNat, Nat.shiftRight_eq_div_pow]
  exact Nat.mod_eq_of_lt (by omega)

theorem opSub_toNat : (opSub op).toNat = op.toNat % 0x10 := by
  simp only [opSub, BitVec.extractLsb'_toNat, Nat.shiftRight_zero]

theorem opNN_toNat : (opNN op).toNat = op.toNat % 0x100 := by
  simp only [opNN, BitVec.extractLsb'_toNat, Nat.shiftRight_zero]

theorem decodeFamily8_error_iff :
    decodeFamily8 op = .error (.unexpected op) ↔
      8 ≤ op.toNat % 0x10 ∧ op.toNat % 0x10 ≤ 0xD ∨ op.toNat % 0x10 = 0xF := by
  rw [← opSub_toNat]
  unfold decodeFamily8
  split
  case h_10 =>
    have hlt := (opSub op).isLt
    simp only [true_iff]
    grind
  all_goals simp [*]

theorem decodeFamilyE_error_iff :
    decodeFamilyE op = .error (.unexpected op) ↔ op.toNat % 0x100 ≠ 0x9E ∧ op.toNat % 0x100 ≠ 0xA1 := by
  unfold decodeFamilyE
  split <;> simp_all [opNN_toNat]

theorem decodeFamilyF_error_iff :
    decodeFamilyF op = .error (.unexpected op) ↔
      op.toNat % 0x100 ∉ [0x07, 0x0A, 0x15, 0x18, 0x1E, 0x29, 0x33, 0x55, 0x65] := by
  unfold decodeFamilyF
  split <;> simp_all [opNN_toNat]

theorem opSub_eq_zero_iff : opSub op = 0#4 ↔ op.toNat % 0x10 = 0 := by
  rw [← opSub_toNat, ← BitVec.toNat_inj, BitVec.toNat_ofNat]

end

/-! ## The obligations -/

/-- Settles O1: format by format, the fields of an encoded word are those it was built from. -/
theorem decodeOfEncode : Obligations.DecodeOfEncode := by
  intro i hi
  cases i with
  | cls | ret => rfl
  | sys nnn =>
    simp only [Instr.wf, Bool.and_eq_true, bne_iff_ne] at hi
    exact decode_encode_sys hi.1 hi.2
  | jp | call | ldI | jpV0 => simp [encode, decode]
  | seImm | sneImm | ldImm | addImm | rnd => simp [encode, decode]
  | seReg | sneReg | drw => simp [encode, decode]
  | ldReg | orReg | andReg | xorReg | addReg | sub | subn | shr | shl => simp [encode, decode, decodeFamily8]
  | skp | sknp => simp [encode, decode, decodeFamilyE]
  | ldVxDt | ldDtVx | ldStVx | ldVxK | addI | ldF | ldB | storeRegs | loadRegs =>
    simp [encode, decode, decodeFamilyF]

/-- Settles O2: family by family, the fields the decoder reads, with those it fixes, are the whole word. -/
theorem encodeOfDecode : Obligations.EncodeOfDecode := by
  intro op i h
  change Spells op i
  have hlt := (opFamily op).isLt
  unfold decode at h
  split at h
  case h_9 => exact spells_decodeFamily8 ‹_› h
  case h_15 => exact spells_decodeFamilyE ‹_› h
  case h_16 => exact spells_decodeFamilyF (by grind) h
  case h_6 | h_10 =>
    split at h
    next hn =>
      obtain rfl := Except.ok.inj h
      exact ⟨rfl, encXY_of_fields ‹_› (congrArg BitVec.toNat hn)⟩
    next => nomatch h
  all_goals obtain rfl := Except.ok.inj h
  case h_1 => exact spells_decodeFamily0 ‹_›
  case h_2 | h_3 | h_11 | h_12 => exact ⟨rfl, encNNN_of_family ‹_›⟩
  case h_4 | h_5 | h_7 | h_8 | h_13 => exact ⟨rfl, encXNN_of_family ‹_›⟩
  case h_14 => exact ⟨rfl, encXYN_of_family ‹_›⟩

/-- Settles O4: the decode tree's errors are those of families 5, 8, 9, E and F, told from the low bits. -/
theorem unexpectedWordsAreTheTable : Obligations.UnexpectedWordsAreTheTable := by
  intro op
  have hlt := (opFamily op).isLt
  simp only [← opFamily_toNat]
  unfold decode
  split
  case h_6 | h_10 => simp [opSub_eq_zero_iff, *]
  case h_9 => simp [decodeFamily8_error_iff, *]
  case h_15 => simp [decodeFamilyE_error_iff, *]
  case h_16 =>
    have hf : (opFamily op).toNat = 0xF := by grind
    simp [decodeFamilyF_error_iff, hf]
  all_goals simp [*]

/-- Settles O3: each of the words written out is laid out, read back and decoded by evaluation. -/
theorem specWordsDecode : Obligations.SpecWordsDecode := by
  unfold Obligations.SpecWordsDecode
  decide

end Sys2Proof.Machine
end

section
/-! PROOFS. The rest of 42_alu.md: logic, differences, shifts and RND, and the obligations O32, O34, O35
and O37. -/

namespace Sys2Proof.Machine

/-! ## What the instructions do to the state -/

section
variable (s : State) (x y : RegIx)

theorem exec_orReg : exec (.orReg x y) s = .next (s.setReg x (s.reg x ||| s.reg y)) := rfl

theorem exec_andReg : exec (.andReg x y) s = .next (s.setReg x (s.reg x &&& s.reg y)) := rfl

theorem exec_xorReg : exec (.xorReg x y) s = .next (s.setReg x (s.reg x ^^^ s.reg y)) := rfl

theorem exec_rnd (nn : Byte) : exec (.rnd x nn) s = .next (s.drawRnd.setReg x (s.rndByte &&& nn)) := rfl

theorem frame_drawRnd : Frame { draws := True } s s.drawRnd := by
  constructor <;> simp

theorem frame_drawRnd_setReg (b : Byte) :
    Frame { regs := (· = x), draws := True } s (s.drawRnd.setReg x b) :=
  { frame_drawRnd s with regs := (frame_setReg s.drawRnd x b).regs }

end

/-! ## Differences and shifts in natural numbers (R141 to R144) -/

section
variable (a b : Byte)

theorem byte_sub_toNat : (a - b).toNat = (a.toNat + 0x100 - b.toNat) % 2 ^ 8 := by
  have := b.isLt
  rw [BitVec.toNat_sub]
  omega

theorem flagByte_noBorrow : flagByte (noBorrow a b) = if b.toNat ≤ a.toNat then 0x01 else 0x00 := by
  simp only [flagByte, noBorrow, decide_eq_true_eq]

theorem byte_shiftRight_one_toNat : (b >>> 1).toNat = b.toNat / 2 := by
  rw [BitVec.toNat_ushiftRight, Nat.shiftRight_one]

theorem byte_shiftLeft_one_toNat : (b <<< 1).toNat = 2 * b.toNat % 2 ^ 8 := by
  rw [BitVec.toNat_shiftLeft, Nat.shiftLeft_eq, pow_one, Nat.mul_comm]

theorem flagByte_shrOut_toNat : (flagByte (shrOut b)).toNat = b.toNat % 2 := by
  have hbit : shrOut b = decide (b.toNat % 2 = 1) := by simp [shrOut, BitVec.getLsbD, Nat.testBit_zero]
  rw [hbit, flagByte]
  split <;> simp_all

/-- Bit 7 of a byte is its half: 0 below 128 and 1 from there on. -/
theorem flagByte_shlOut_toNat : (flagByte (shlOut b)).toNat = b.toNat / 128 := by
  have hlt := b.isLt
  have hbit : shlOut b = decide (128 ≤ b.toNat) := by
    simp [shlOut, BitVec.getLsbD, Nat.testBit_eq_decide_div_mod_eq]
    omega
  rw [hbit, flagByte]
  split <;> simp_all <;> omega

/-- The shift source is V[Y] under ORIGINAL and V[X] under MODERN (R143, R144). -/
theorem shiftSource_eq {s : State} {x y : RegIx} {src : Byte}
    (horig : s.cfg.shiftProfile = .original → src = s.reg y)
    (hmod : s.cfg.shiftProfile = .modern → src = s.reg x) : s.shiftSource x y = src := by
  unfold State.shiftSource
  split
  · next h => exact (horig h).symm
  · next h => exact (hmod h).symm

end

/-! ## Flag producers -/

section
variable {s : State} {i : Instr} {x : RegIx}

/-- What SUB and SUBN share: a difference, and then the flag that no borrow occurred. -/
theorem difference_then_noBorrow {a b : Byte} (h : exec i s = .next (s.setRegFlag x (a - b) (noBorrow a b))) :
    ∃ t, exec i s = .next t ∧ Frame { regs := fun r => r = x ∨ r = 0xF } s t ∧
      (x ≠ 0xF → (t.reg x).toNat = (a.toNat + 0x100 - b.toNat) % 2 ^ 8) ∧
      t.reg 0xF = if b.toNat ≤ a.toNat then 0x01 else 0x00 :=
  ⟨_, h, frame_setRegFlag s x _ _,
    fun hx => (congrArg BitVec.toNat (reg_setRegFlag_self s _ _ hx)).trans (byte_sub_toNat a b),
    (reg_setRegFlag_vf s x _ _).trans (flagByte_noBorrow a b)⟩

/-- What SHR and SHL share: a shifted byte, and then the flag of the bit shifted out. -/
theorem shift_then_bit {b : Byte} {out : Bool} (h : exec i s = .next (s.setRegFlag x b out)) :
    ∃ t, exec i s = .next t ∧ Frame { regs := fun r => r = x ∨ r = 0xF } s t ∧
      (x ≠ 0xF → (t.reg x).toNat = b.toNat) ∧ (t.reg 0xF).toNat = (flagByte out).toNat :=
  ⟨_, h, frame_setRegFlag s x _ _, fun hx => congrArg BitVec.toNat (reg_setRegFlag_self s b out hx),
    congrArg BitVec.toNat (reg_setRegFlag_vf s x b out)⟩

/-- What OR, AND and XOR share: one register write, whose bits are given. -/
theorem setReg_bits {b : Byte} {bit : Nat → Bool} (h : exec i s = .next (s.setReg x b))
    (hb : ∀ k, b.getLsbD k = bit k) :
    ∃ t, exec i s = .next t ∧ Frame { regs := (· = x) } s t ∧ ∀ k, (t.reg x).getLsbD k = bit k :=
  ⟨_, h, frame_setReg s x b, fun k => by rw [reg_setReg_self, hb]⟩

end

/-! ## The obligations -/

/-- Settles O34: SUB and SUBN are one difference and flag with the operands exchanged. -/
theorem subDifferenceAndNoBorrow : Obligations.SubDifferenceAndNoBorrow :=
  ⟨fun _ h => decode_sub (opFamily_of_match h rfl) (opSub_of_match h rfl),
    fun _ h => decode_subn (opFamily_of_match h rfl) (opSub_of_match h rfl),
    fun x y s => ⟨difference_then_noBorrow (exec_sub s x y), difference_then_noBorrow (exec_subn s x y)⟩⟩

/-- Settles O35: both shifts read the profile's source, and their result and flag are its halves and doubles. -/
theorem shiftsFollowTheProfile : Obligations.ShiftsFollowTheProfile := by
  refine ⟨fun _ h => decode_shr (opFamily_of_match h rfl) (opSub_of_match h rfl),
    fun _ h => decode_shl (opFamily_of_match h rfl) (opSub_of_match h rfl), fun x y s src horig hmod => ?_⟩
  obtain rfl := shiftSource_eq horig hmod
  simp only [← byte_shiftRight_one_toNat, ← byte_shiftLeft_one_toNat, ← flagByte_shrOut_toNat,
    ← flagByte_shlOut_toNat]
  exact ⟨shift_then_bit (exec_shr s x y), shift_then_bit (exec_shl s x y)⟩

/-- Settles O32: each is one register write of a bitwise combination, so VF stays unless it is V[X]. -/
theorem logicWritesNoFlag : Obligations.LogicWritesNoFlag :=
  ⟨fun _ h => decode_orReg (opFamily_of_match h rfl) (opSub_of_match h rfl),
    fun _ h => decode_andReg (opFamily_of_match h rfl) (opSub_of_match h rfl),
    fun _ h => decode_xorReg (opFamily_of_match h rfl) (opSub_of_match h rfl),
    fun x y s =>
      ⟨setReg_bits (exec_orReg s x y) fun _ => BitVec.getLsbD_or,
        setReg_bits (exec_andReg s x y) fun _ => BitVec.getLsbD_and,
        setReg_bits (exec_xorReg s x y) fun _ => BitVec.getLsbD_xor⟩⟩

/-- Settles O37: RND is one draw and one register write; a draw takes the listed byte off the list, or counts a free
value when none is listed. -/
theorem rndMasksAFreshByte : Obligations.RndMasksAFreshByte := by
  refine ⟨fun _ h => decode_rnd (opFamily_of_match h rfl), fun x nn s => ⟨fun b rest h => ?_, fun h => ?_⟩⟩
  all_goals refine ⟨_, exec_rnd s x nn, ?_, ?_, ?_, frame_drawRnd_setReg s x _⟩ <;> simp [State.rndByte, h]

end Sys2Proof.Machine
end

section
/-! PROOFS. SYS, RET and CALL (41_control.md), the index arithmetic, LD B and a stored opcode (43_index_memory.md,
20_memory.md), the timer writes and the key skips (45_timers_keys.md): what each does on either side of its
condition, its frame, and the obligations O22, O23, O24, O40, O41, O44, O51 and O53. -/

namespace Sys2Proof.Machine

/-! ## SYS, RET and CALL -/

section
variable {s : State}

theorem exec_sys_of_lenient (nnn : Addr) (h : s.cfg.strictSys = false) : exec (.sys nnn) s = .next s :=
  if_neg (by rw [h]; decide)

theorem exec_sys_of_strict (nnn : Addr) (h : s.cfg.strictSys = true) :
    exec (.sys nnn) s = .next (s.raise .unexpectedOpcode) := if_pos h

theorem exec_ret_of_ne (h : s.sp ≠ s.cfg.stackDepth) :
    exec .ret s = .next ((s.setPc (s.stackAt s.sp)).pop) := if_neg h

theorem exec_ret_of_eq (h : s.sp = s.cfg.stackDepth) : exec .ret s = .next (s.raise .stackUnderflow) := if_pos h

theorem exec_call_of_ne (nnn : Addr) (h : s.sp ≠ 0) :
    exec (.call nnn) s = .next ((s.push s.pc).setPc (zext16 nnn)) := if_neg h

theorem exec_call_of_eq (nnn : Addr) (h : s.sp = 0) : exec (.call nnn) s = .next (s.raise .stackOverflow) := if_pos h

theorem frame_setPc_pop (s : State) (w : Word) : Frame { pc := True, stack := True } s ((s.setPc w).pop) := by
  constructor <;> simp

theorem frame_push_setPc (s : State) (w p : Word) : Frame { pc := True, stack := True } s ((s.push w).setPc p) := by
  constructor <;> simp

theorem stackAt_of_lt {k : Nat} (h : k < s.stack.length) : s.stack[k]? = some (s.stackAt k) := by
  rw [State.stackAt, List.getD_eq_getElem _ _ h, List.getElem?_eq_getElem h]

/-- A push writes the slot below the old top. -/
theorem push_stack_top (w : Word) (hpos : 0 < s.sp) (hle : s.sp ≤ s.stack.length) :
    (s.push w).stack[(s.push w).sp]? = some w := by
  rw [push_stack, push_sp, List.getElem?_set_self (by omega)]

theorem push_stack_ne (w : Word) {k : Nat} (h : k ≠ (s.push w).sp) : (s.push w).stack[k]? = s.stack[k]? :=
  List.getElem?_set_ne (Ne.symm h)

end

/-! ## The index register (R162, R163) -/

section
variable (s : State) (x : RegIx) (b : Byte)

theorem exec_addI : exec (.addI x) s = .next (s.setI (s.i + byteToWord (s.reg x))) := rfl

theorem exec_ldF : exec (.ldF x) s = .next (s.setI (glyphAddr (s.reg x))) := rfl

theorem lowNibble_toNat : (b &&& 0x0F).toNat = b.toNat % 0x10 := by
  rw [BitVec.toNat_and]
  exact Nat.and_two_pow_sub_one_eq_mod b.toNat 4

/-- The sixteen glyphs of five bytes end at address 79, so the product never wraps. -/
theorem glyphAddr_toNat : (glyphAddr b).toNat = 5 * (b.toNat % 16) := by
  rw [glyphAddr, BitVec.toNat_mul, byteToWord_toNat, lowNibble_toNat]
  have hlt : 5 * (b.toNat % 16) < 2 ^ 16 := by omega
  exact Nat.mod_eq_of_lt hlt

end

/-! ## LD B (R165) -/

section
variable {s : State} {x : RegIx}

theorem inRange_digits_iff (s : State) : s.inRange (s.dataAddr 0) 3 = true ↔ s.i.toNat + 2 < s.cfg.memSize :=
  inRange_iff s s.i.toNat 3

theorem exec_ldB_of_lt (h : s.i.toNat + 2 < s.cfg.memSize) :
    exec (.ldB x) s = .next (s.writeBytes s.i.toNat (decimalDigits (s.reg x))) :=
  if_pos ((inRange_digits_iff s).mpr h)

theorem exec_ldB_of_le (h : s.cfg.memSize ≤ s.i.toNat + 2) :
    exec (.ldB x) s = .next (s.raise .indexOutOfBounds) :=
  if_neg (mt (inRange_digits_iff s).mp h.not_gt)

/-- The three digits stored, each below 256 and so stored whole. -/
theorem byte_writeDigits (hm : Memory.wf s.cfg s.mem) (a : Nat) (b : Byte) :
    ((s.writeBytes a (decimalDigits b)).byte a).toNat = b.toNat / 100 ∧
    ((s.writeBytes a (decimalDigits b)).byte (a + 1)).toNat = b.toNat / 10 % 10 ∧
    ((s.writeBytes a (decimalDigits b)).byte (a + 2)).toNat = b.toNat % 10 := by
  have hlt := b.isLt
  have hbyte {k : Nat} (hk : k < 3) := byte_writeBytes_inside s a (decimalDigits b) hm hk
  refine ⟨(congrArg BitVec.toNat (hbyte (k := 0) (by omega))).trans (Nat.mod_eq_of_lt ?_),
    (congrArg BitVec.toNat (hbyte (k := 1) (by omega))).trans (Nat.mod_eq_of_lt ?_),
    (congrArg BitVec.toNat (hbyte (k := 2) (by omega))).trans (Nat.mod_eq_of_lt ?_)⟩ <;> omega

end

/-! ## The opcode at PC (R57) -/

section
variable {t u : State}

theorem wordOfBytes_toNat (hi lo : Byte) : (wordOfBytes hi lo).toNat = hi.toNat * 0x100 + lo.toNat := by
  rw [wordOfBytes, BitVec.toNat_append, ← Nat.shiftLeft_add_eq_or_of_lt lo.isLt, Nat.shiftLeft_eq]

/-- What an address reads as depends on the configuration and memory alone. -/
theorem byte_congr (hcfg : u.cfg = t.cfg) (hmem : u.mem = t.mem) (a : Nat) : u.byte a = t.byte a := by
  rw [State.byte, State.byte, hcfg, hmem]

end

/-! ## The timers (R205, R206) -/

section
variable (s : State) (x : RegIx)

theorem exec_ldDtVx : exec (.ldDtVx x) s = .next (s.setDelay (s.timerWrite (s.reg x))) := rfl

theorem exec_ldStVx : exec (.ldStVx x) s = .next (s.setSound (s.timerWrite (soundValue (s.reg x)))) := rfl

theorem frame_setDelay (t : Timer) : Frame { delay := True } s (s.setDelay t) := by
  constructor <;> simp

theorem frame_setSound (t : Timer) : Frame { sound := True } s (s.setSound t) := by
  constructor <;> simp

theorem soundValue_eq (b : Byte) : soundValue b = if b.toNat = 1 then 0 else b := by
  have hone : b = 1 ↔ b.toNat = 1 := BitVec.toNat_inj.symm
  simp only [soundValue, hone]

end

/-! ## The key skips (R201 to R203) -/

section
variable {s : State} {b : Byte} {x : RegIx} {down : Bool}

/-- The three ways in which a register's value answers a key. -/
theorem keydown_eq_some
    (h : (b.toNat < 0x10 ∧ down = s.kbd.getLsbD b.toNat) ∨
      (0x10 ≤ b.toNat ∧ s.cfg.keyIndexPolicy = .notPressed ∧ down = false) ∨
      (0x10 ≤ b.toNat ∧ s.cfg.keyIndexPolicy = .lowNibble ∧ down = s.kbd.getLsbD (b.toNat % 0x10))) :
    s.keydown b = some down := by
  unfold State.keydown
  obtain ⟨hlt, rfl⟩ | ⟨hle, hp, rfl⟩ | ⟨hle, hp, rfl⟩ := h
  · rw [if_pos (by omega), State.pressed]
  · rw [if_neg (by omega), hp]
  · rw [if_neg (by omega), hp, State.pressed, lowNibble_toNat]

theorem exec_skp_of_some (h : s.keydown (s.reg x) = some down) : exec (.skp x) s = .next (s.skipIf down) := by
  simp only [exec, execSkp, h]

theorem exec_sknp_of_some (h : s.keydown (s.reg x) = some down) :
    exec (.sknp x) s = .next (s.skipIf (!down)) := by
  simp only [exec, execSknp, h]

theorem exec_skp_of_none (h : s.keydown (s.reg x) = none) :
    exec (.skp x) s = .refused (.keyIndex (s.reg x)) := by
  simp only [exec, execSkp, h]

theorem exec_sknp_of_none (h : s.keydown (s.reg x) = none) :
    exec (.sknp x) s = .refused (.keyIndex (s.reg x)) := by
  simp only [exec, execSknp, h]

theorem skipIf_not_pc_toNat (s : State) (c : Bool) :
    (s.skipIf (!c)).pc.toNat = if c then s.pc.toNat else (s.pc.toNat + 2) % 2 ^ 16 := by
  rw [skipIf_pc_toNat]
  cases c <;> rfl

end

/-! ## The obligations -/

/-- Settles O41: in range, LD B is a run of three byte writes; out of range it is the fault alone. -/
theorem ldBStoresDigits : Obligations.LdBStoresDigits := by
  refine ⟨fun _ h => decode_ldB (opFamily_of_match h rfl) (opNN_of_match h rfl),
    fun x s => ⟨fun hm hlt => ?_, exec_ldB_of_le⟩⟩
  obtain ⟨hhundreds, htens, hones⟩ := byte_writeDigits hm s.i.toNat (s.reg x)
  exact ⟨_, exec_ldB_of_lt hlt, hhundreds, htens, hones, frame_writeBytes s s.i.toNat (decimalDigits (s.reg x))⟩

/-- Settles O44: the bytes LD [I], V1 stores are V[0] and V[1], and a fetch there joins them. -/
theorem fetchSeesStores : Obligations.FetchSeesStores := by
  intro s hm hlt
  refine ⟨_, exec_storeRegs_of_lt (x := 1) hlt, fun u hcfg hmem hpc => ?_⟩
  have hbyte {r : RegIx} (hr : r ≤ 1) : u.byte (s.i.toNat + r.val) = s.reg r :=
    (byte_congr hcfg hmem _).trans (byte_storeBlock hm s.i.toNat hr)
  rw [State.fetchWord, hpc, wordOfBytes_toNat]
  exact congrArg₂ (fun hi lo : Byte => hi.toNat * 0x100 + lo.toNat) (hbyte (r := 0) (by decide))
    (hbyte (r := 1) (by decide))

/-- Settles O51: a key index that is not refused answers whether to skip, and SKNP skips on the negation. -/
theorem keySkips : Obligations.KeySkips := by
  refine ⟨fun _ h => decode_skp (opFamily_of_match h rfl) (opNN_of_match h rfl),
    fun _ h => decode_sknp (opFamily_of_match h rfl) (opNN_of_match h rfl),
    fun x s down => ⟨fun h => ?_, fun hle hp => ?_⟩⟩
  · have hkey := keydown_eq_some h
    exact ⟨⟨_, exec_skp_of_some hkey, frame_skipIf s _, skipIf_pc_toNat s _⟩,
      ⟨_, exec_sknp_of_some hkey, frame_skipIf s _, skipIf_not_pc_toNat s _⟩⟩
  · have hkey := (keydown_eq_none_iff s _).mpr ⟨hp, hle⟩
    exact ⟨exec_skp_of_none hkey, exec_sknp_of_none hkey⟩

/-- Settles O22: the decoder leaves STRICT_SYS to the instruction, which tests it. -/
theorem sysIsNopOrFault : Obligations.SysIsNopOrFault :=
  ⟨fun _ h => decode_sys (opFamily_of_match h rfl),
    fun nnn _ => ⟨exec_sys_of_lenient nnn, exec_sys_of_strict nnn⟩⟩

/-- Settles O23: off the bottom of the stack, RET reads the top into PC and moves SP; at the bottom it faults. -/
theorem retPopsOrUnderflows : Obligations.RetPopsOrUnderflows :=
  ⟨fun _ h => decode_ret (eq_of_match h rfl),
    fun s => ⟨fun hlt hlen => ⟨_, exec_ret_of_ne hlt.ne, stackAt_of_lt (hlen ▸ hlt), rfl, rfl, frame_setPc_pop s _⟩,
      exec_ret_of_eq⟩⟩

/-- Settles O24: with room on the stack, CALL pushes PC below the top and jumps; without, it faults. -/
theorem callPushesOrOverflows : Obligations.CallPushesOrOverflows :=
  ⟨fun _ h => decode_call (opFamily_of_match h rfl),
    fun nnn s => ⟨fun hpos hle => ⟨_, exec_call_of_ne nnn hpos.ne', zext16_toNat nnn, Nat.sub_add_cancel hpos,
        push_stack_top s.pc hpos hle, fun _ hk => push_stack_ne s.pc hk, frame_push_setPc s _ _⟩,
      exec_call_of_eq nnn⟩⟩

/-- Settles O40: both are one write of I, of a sum modulo 2^16 and of a glyph's address. -/
theorem indexArithmetic : Obligations.IndexArithmetic :=
  ⟨fun _ h => decode_addI (opFamily_of_match h rfl) (opNN_of_match h rfl),
    fun _ h => decode_ldF (opFamily_of_match h rfl) (opNN_of_match h rfl),
    fun x s =>
      ⟨⟨_, exec_addI s x, by rw [setI_i, BitVec.toNat_add, byteToWord_toNat], frame_setI s _⟩,
        ⟨_, exec_ldF s x, glyphAddr_toNat _, frame_setI s _⟩⟩⟩

/-- Settles O53: each is one write of a timer, through `State.timerWrite`. -/
theorem timerWritesRestartTheDeadline : Obligations.TimerWritesRestartTheDeadline :=
  ⟨fun _ h => decode_ldDtVx (opFamily_of_match h rfl) (opNN_of_match h rfl),
    fun _ h => decode_ldStVx (opFamily_of_match h rfl) (opNN_of_match h rfl),
    fun x s =>
      ⟨⟨_, exec_ldDtVx s x, rfl, rfl, frame_setDelay s _⟩,
        ⟨_, exec_ldStVx s x, soundValue_eq _, rfl, frame_setSound s _⟩⟩⟩

end Sys2Proof.Machine
end

section
/-! PROOFS. DRW of 44_display.md: what a draw that does not fault leaves in the display and in VF, the collision
detector as a bitmask, and the obligations O46 to O50. -/

namespace Sys2Proof.Machine

/-! ## DRW on either side of its conditions (R184 to R186) -/

section
variable {s : State} (x y : RegIx) {n : Count}

/-- The state after the pixels, then VF, then the invalidation (R185, R187). -/
def State.draw (s : State) (x y : RegIx) (n : Nat) : State :=
  ((s.setFb (s.composite x y n).fb).setFlag (s.composite x y n).collision).invalidate
    (touchedRect s.cfg (s.originX x) (s.originY y) n)

theorem exec_drw_of_zero (hn : n.val = 0) : exec (.drw x y n) s = .next (s.setFlag false) := if_pos hn

theorem exec_drw_of_lt (hn : 0 < n.val) (hlt : s.i.toNat + n.val - 1 < s.cfg.memSize) :
    exec (.drw x y n) s = .next (s.draw x y n.val) :=
  (if_neg hn.ne').trans (if_pos ((inRange_iff s _ _).mpr hlt))

theorem exec_drw_of_le (hn : 0 < n.val) (hle : s.cfg.memSize ≤ s.i.toNat + n.val - 1) :
    exec (.drw x y n) s = .next (s.raise .indexOutOfBounds) :=
  (if_neg hn.ne').trans (if_neg (mt (inRange_iff s _ _).mp hle.not_gt))

end

/-! ## A draw that does not fault -/

open Classical in
/-- From s to t the sprite of DXYN has been drawn: VF holds the collision, every covered pixel is inverted, and the
rest of the state is as it was. -/
structure Drawn (s : State) (x y : RegIx) (n : Nat) (t : State) : Prop where
  frame : Frame { regs := (· = vf), display := True } s t
  shaped : Framebuffer.Shaped t.cfg.displayW t.cfg.displayH t.fb
  pixel : ∀ px py, t.pixel px py = (s.pixel px py ^^ decide (s.SpriteCovers x y n px py))
  flag : t.reg vf = flagByte (decide (∃ px py, s.SpriteCovers x y n px py ∧ s.pixel px py = true))

section
variable {s t : State} {x y : RegIx} {n : Nat} {px py : Nat}

theorem not_spriteCovers_zero : ¬ s.SpriteCovers x y 0 px py := by
  rintro ⟨-, -, r, b, hr, -⟩
  exact Nat.not_lt_zero r hr

theorem drawn_setFlag (hs : Framebuffer.Shaped s.cfg.displayW s.cfg.displayH s.fb) :
    Drawn s x y 0 (s.setFlag false) where
  frame := { frame_setReg s vf _ with display := fun h => absurd trivial h }
  shaped := hs
  pixel px py := by simp [not_spriteCovers_zero]
  flag := by simp [reg_setFlag, not_spriteCovers_zero]

theorem frame_draw (s : State) (x y : RegIx) (n : Nat) :
    Frame { regs := (· = vf), display := True } s (s.draw x y n) := by
  constructor <;> simp [State.draw]
  exact fun r hr => (reg_setFlag _ r _).trans (if_neg hr)

theorem drawn_draw (hs : Framebuffer.Shaped s.cfg.displayW s.cfg.displayH s.fb) (x y : RegIx) (n : Nat) :
    Drawn s x y n (s.draw x y n) where
  frame := frame_draw s x y n
  shaped := plotRows_shaped (c := ⟨s.fb, false⟩) hs _ _ _
  pixel px py := by
    have hp := pixel_plotRows (c := ⟨s.fb, false⟩) hs (s.originX x) (s.originY y) (s.readBytes (s.dataAddr 0) n) px py
    rwa [decide_eq_decide.mpr (rowsCover_readBytes s x y n px py)] at hp
  flag := by
    have hc := collision_plotRows (c := ⟨s.fb, false⟩) hs (s.originX x) (s.originY y) (s.readBytes (s.dataAddr 0) n)
    have hcov := exists_congr fun px => exists_congr fun py =>
      and_congr_left fun _ : s.pixel px py = true => rowsCover_readBytes s x y n px py
    refine (reg_setFlag _ vf _).trans ((if_pos rfl).trans (congrArg flagByte ?_))
    exact hc.trans ((Bool.false_or _).trans (decide_eq_decide.mpr hcov))

/-- The sprite's bytes exist, or it has none (R184, R186). -/
def State.SpriteInRange (s : State) (n : Nat) : Prop := n = 0 ∨ s.i.toNat + n - 1 < s.cfg.memSize

theorem spriteInRange_of_exec {n : Count} (h : exec (.drw x y n) s = .next t) (ht : t.fail = .ok) :
    s.SpriteInRange n.val := by
  obtain hn | hn := Nat.eq_zero_or_pos n.val
  · exact .inl hn
  refine .inr (lt_of_not_ge fun hle => ?_)
  rw [exec_drw_of_le x y hn hle] at h
  obtain rfl := Host.Outcome.next.inj h
  nomatch ht

/-- A draw in range has drawn its sprite, without rows as well. -/
theorem drawn_of_exec {n : Count} (hs : Framebuffer.Shaped s.cfg.displayW s.cfg.displayH s.fb)
    (hr : s.SpriteInRange n.val) (h : exec (.drw x y n) s = .next t) : Drawn s x y n.val t := by
  obtain hn | hn := Nat.eq_zero_or_pos n.val
  · rw [exec_drw_of_zero x y hn] at h
    obtain rfl := Host.Outcome.next.inj h
    exact hn ▸ drawn_setFlag hs
  · rw [exec_drw_of_lt x y hn (hr.resolve_left hn.ne')] at h
    obtain rfl := Host.Outcome.next.inj h
    exact drawn_draw hs x y n.val

namespace Drawn

theorem pixel_of_covers (h : Drawn s x y n t) (hc : s.SpriteCovers x y n px py) :
    t.pixel px py = !s.pixel px py := by simp [h.pixel, hc]

theorem pixel_of_not_covers (h : Drawn s x y n t) (hc : ¬ s.SpriteCovers x y n px py) :
    t.pixel px py = s.pixel px py := by simp [h.pixel, hc]

open Classical in
theorem flag_of_on (h : Drawn s x y n t) (hon : ∃ px py, s.SpriteCovers x y n px py ∧ s.pixel px py = true) :
    t.reg 0xF = 0x01 := by
  rw [show t.reg 0xF = _ from h.flag, decide_eq_true hon]
  rfl

open Classical in
theorem flag_of_off (h : Drawn s x y n t) (hoff : ∀ px py, s.SpriteCovers x y n px py → s.pixel px py = false) :
    t.reg 0xF = 0x00 := by
  have hnone : ¬ ∃ px py, s.SpriteCovers x y n px py ∧ s.pixel px py = true := fun ⟨px, py, hc, hon⟩ =>
    Bool.false_ne_true ((hoff px py hc).symm.trans hon)
  rw [show t.reg 0xF = _ from h.flag, decide_eq_false hnone]
  rfl

theorem spriteInRange (h : Drawn s x y n t) {k : Nat} (hr : s.SpriteInRange k) : t.SpriteInRange k := by
  rwa [State.SpriteInRange, h.frame.always.1, h.frame.index id]

/-- After a draw the sprite of the same instruction is the same, if VF is none of its coordinates. -/
theorem spriteCovers_iff (h : Drawn s x y n t) (hx : x ≠ 0xF) (hy : y ≠ 0xF) :
    t.SpriteCovers x y n px py ↔ s.SpriteCovers x y n px py := by
  have hbyte (a : Nat) : t.byte a = s.byte a := h.frame.bytes a id
  simp only [State.SpriteCovers, h.frame.always.1, h.frame.regs x hx, h.frame.regs y hy, h.frame.index id, hbyte]

end Drawn

end

/-! ## The collision detector as a bitmask (R188) -/

section
variable (p q : Byte) (fb : Framebuffer) (w x0 y : Nat) (row : Byte) {b : Nat}

theorem spriteBit_and : spriteBit (p &&& q) b = (spriteBit p b && spriteBit q b) := BitVec.getLsbD_and

theorem spriteBit_xor : spriteBit (p ^^^ q) b = (spriteBit p b ^^ spriteBit q b) := BitVec.getLsbD_xor

variable {p q}

/-- A byte is its eight sprite columns. -/
theorem eq_of_spriteBit_eq (h : ∀ b, b < 8 → spriteBit p b = spriteBit q b) : p = q := by
  refine BitVec.eq_of_getLsbD_eq fun k hk => ?_
  have := h (7 - k) (by omega)
  rwa [spriteBit, spriteBit, show 7 - (7 - k) = k by omega] at this

theorem ne_zero_iff_spriteBit : p ≠ 0 ↔ ∃ b, b < 8 ∧ spriteBit p b = true := by
  constructor
  · intro hp
    by_contra hnone
    refine hp (eq_of_spriteBit_eq fun b hb => ?_)
    have hoff : spriteBit p b = false := Bool.eq_false_iff.mpr fun hon => hnone ⟨b, hb, hon⟩
    exact hoff.trans BitVec.getLsbD_zero.symm
  · rintro ⟨b, -, hbit⟩ rfl
    simp [spriteBit] at hbit

theorem spriteBit_clippedByte (hb : b < 8) :
    spriteBit (clippedByte w x0 row) b = (spriteBit row b && decide (x0 + b < w)) := by
  rw [spriteBit, clippedByte, BitVec.getLsbD_ofFnLE, dif_pos (by omega)]
  simp only [show 7 - (7 - b) = b by omega, spriteBit]

theorem spriteBit_pixelsUnder (hb : b < 8) :
    spriteBit (pixelsUnder fb w x0 y) b = (fb.pixel (x0 + b) y && decide (x0 + b < w)) := by
  rw [spriteBit, pixelsUnder, BitVec.getLsbD_ofFnLE, dif_pos (by omega)]
  simp only [show 7 - (7 - b) = b by omega]

/-- f and m share a bit exactly when a set sprite column on the screen lies on a pixel that is on. -/
theorem pixelsUnder_and_clippedByte_ne_zero :
    pixelsUnder fb w x0 y &&& clippedByte w x0 row ≠ 0 ↔
      ∃ b, b < 8 ∧ x0 + b < w ∧ spriteBit row b = true ∧ fb.pixel (x0 + b) y = true := by
  rw [ne_zero_iff_spriteBit]
  refine exists_congr fun b => and_congr_right fun hb => ?_
  rw [spriteBit_and, spriteBit_pixelsUnder fb w x0 y hb, spriteBit_clippedByte w x0 row hb]
  simp only [Bool.and_eq_true, decide_eq_true_eq]
  tauto

end

/-! ## The obligations -/

/-- Settles O47: a draw in range is `State.draw`, whose pixels are inverted where the sprite covers them. -/
theorem drwXorsTheSprite : Obligations.DrwXorsTheSprite := by
  refine fun x y n s hn => ⟨fun hlt hs => ?_, exec_drw_of_le x y hn⟩
  have hd := drawn_draw hs x y n.val
  exact ⟨_, exec_drw_of_lt x y hn hlt, fun _ _ => hd.pixel_of_covers, fun _ _ => hd.pixel_of_not_covers,
    rfl, rfl, hd.frame⟩

/-- Settles O48: VF takes the collision of `State.draw`, that a covered pixel was on. -/
theorem drwReportsCollision : Obligations.DrwReportsCollision := by
  intro x y n s hn hlt hs
  have hd := drawn_draw hs x y n.val
  exact ⟨_, exec_drw_of_lt x y hn hlt, hd.flag_of_on, hd.flag_of_off⟩

/-- Settles O49: both draws draw the same sprite, so each covered pixel is inverted twice, and one that was off
is on before the second draw. -/
theorem drwTwiceRestores : Obligations.DrwTwiceRestores := by
  intro x y n s t u hinv hx hy hs ht htok hu
  obtain ⟨-, -, -, -, -, hshaped⟩ := hinv
  have hr := spriteInRange_of_exec ht htok
  have h1 := drawn_of_exec hshaped hr ht
  have h2 := drawn_of_exec h1.shaped (h1.spriteInRange hr) hu
  refine ⟨fun px py => ?_, fun ⟨px, py, hc, hoff⟩ => h2.flag_of_on ⟨px, py, (h1.spriteCovers_iff hx hy).mpr hc, ?_⟩⟩
  · rw [h2.pixel, h1.pixel, decide_eq_decide.mpr (h1.spriteCovers_iff hx hy), Bool.xor_assoc, Bool.xor_self,
      Bool.xor_false]
  · rw [h1.pixel_of_covers hc, hoff, Bool.not_false]

/-- Settles O50: column by column, the pixel loop is the exclusive or and the common bit of the two bytes. -/
theorem collisionIsABitmask : Obligations.CollisionIsABitmask := by
  intro fb coll w h x0 y row hs hy
  rw [plotRow_eq, collision_plotBits (c := ⟨fb, coll⟩) hs x0 hy]
  refine ⟨congrArg (coll || ·) (decide_eq_decide.mpr (pixelsUnder_and_clippedByte_ne_zero fb w x0 y row).symm),
    eq_of_spriteBit_eq fun b hb => ?_⟩
  rw [spriteBit_xor, spriteBit_pixelsUnder _ w x0 y hb, spriteBit_pixelsUnder _ w x0 y hb,
    spriteBit_clippedByte w x0 row hb, pixel_plotBits (c := ⟨fb, coll⟩) hs x0 hy]
  by_cases hw : x0 + b < w <;> simp [hw, hb]

/-- Settles O46: without rows, DRW is the flag write alone, and its row fixes the family nibble. -/
theorem drwWithoutRowsClearsVF : Obligations.DrwWithoutRowsClearsVF :=
  ⟨fun _ h => decode_drw (opFamily_of_match h rfl),
    fun x y s => ⟨_, exec_drw_of_zero x y rfl, reg_setReg_self s vf _, frame_setReg s vf _⟩⟩

end Sys2Proof.Machine
end

section
/-! PROOFS. Every instruction at once: when it faults and with which code (60_exceptions.md), what it may change when
it does not, that only the shifts read the profile (42_alu.md), and the obligations O20, O21, O38, O55 and O56. -/

namespace Sys2Proof.Machine

/-! ## The fault an instruction raises (R231) -/

/-- The run-time rows of the fail table: the code the instruction raises in s, if any. -/
def State.faultOf (s : State) : Instr → Option FailCode
  | .sys _ => if s.cfg.strictSys then some .unexpectedOpcode else none
  | .ret => if s.sp = s.cfg.stackDepth then some .stackUnderflow else none
  | .call _ => if s.sp = 0 then some .stackOverflow else none
  | .drw _ _ n => if 0 < n.val ∧ s.cfg.memSize ≤ s.i.toNat + n.val - 1 then some .indexOutOfBounds else none
  | .ldB _ => if s.cfg.memSize ≤ s.i.toNat + 2 then some .indexOutOfBounds else none
  | .storeRegs x | .loadRegs x => if s.cfg.memSize ≤ s.i.toNat + x.val then some .indexOutOfBounds else none
  | _ => none

/-- What the instruction may change when it does not fault. -/
def State.footprint (s : State) : Instr → Footprint
  | .cls => { display := True }
  | .sys _ => {}
  | .ret | .call _ => { pc := True, stack := True }
  | .jp _ | .jpV0 _ | .seImm _ _ | .sneImm _ _ | .seReg _ _ | .sneReg _ _ | .skp _ | .sknp _ => { pc := True }
  | .ldImm x _ | .addImm x _ | .ldReg x _ | .orReg x _ | .andReg x _ | .xorReg x _ | .ldVxDt x =>
    { regs := (· = x) }
  | .addReg x _ | .sub x _ | .subn x _ | .shr x _ | .shl x _ => { regs := fun r => r = x ∨ r = vf }
  | .rnd x _ => { regs := (· = x), draws := True }
  | .drw _ _ _ => { regs := (· = vf), display := True }
  | .ldI _ | .addI _ | .ldF _ => { index := True }
  | .ldDtVx _ => { delay := True }
  | .ldStVx _ => { sound := True }
  | .ldVxK _ => { halt := True }
  | .ldB _ => { bytes := Span s.i.toNat 3 }
  | .storeRegs x => { bytes := Span s.i.toNat (x.val + 1), index := True }
  | .loadRegs x => { regs := (· ≤ x), index := True }

section
variable {s t u : State} {i : Instr} {c : FailCode}

theorem eq_of_ite_some {p : Prop} [Decidable p] {d : FailCode} (h : (if p then some d else none) = some c) :
    p ∧ d = c := (Option.ite_none_right_eq_some.mp h).imp_right Option.some.inj

theorem not_of_ite_none {p : Prop} [Decidable p] (h : (if p then some c else none) = none) : ¬ p := by
  simpa using h

/-- A fault is a next state in which FAIL alone is new (R237). -/
theorem exec_of_fault (h : s.faultOf i = some c) : exec i s = .next (s.raise c) := by
  cases i with
  | sys nnn => obtain ⟨hp, rfl⟩ := eq_of_ite_some h; exact exec_sys_of_strict nnn hp
  | ret => obtain ⟨hp, rfl⟩ := eq_of_ite_some h; exact exec_ret_of_eq hp
  | call nnn => obtain ⟨hp, rfl⟩ := eq_of_ite_some h; exact exec_call_of_eq nnn hp
  | drw x y n => obtain ⟨⟨hn, hp⟩, rfl⟩ := eq_of_ite_some h; exact exec_drw_of_le x y hn hp
  | ldB x => obtain ⟨hp, rfl⟩ := eq_of_ite_some h; exact exec_ldB_of_le hp
  | storeRegs x => obtain ⟨hp, rfl⟩ := eq_of_ite_some h; exact exec_storeRegs_of_le hp
  | loadRegs x => obtain ⟨hp, rfl⟩ := eq_of_ite_some h; exact exec_loadRegs_of_le hp
  | _ => nomatch h

/-- A frame of the next state computed is a frame of the next state answered. -/
theorem frame_of_next {f : Footprint} (h : exec i s = .next t) (hu : exec i s = .next u) (hf : Frame f s u) :
    Frame f s t := Host.Outcome.next.inj (hu.symm.trans h) ▸ hf

theorem frame_refl (f : Footprint) (s : State) : Frame f s s := by
  constructor <;> simp

theorem frame_of_keySkip {x : RegIx} (hi : i = .skp x ∨ i = .sknp x) (h : exec i s = .next t) :
    Frame { pc := True } s t := by
  obtain ⟨c, rfl⟩ := exists_skipIf_of_keySkip hi h
  exact frame_skipIf s c

theorem frame_of_drw {x y : RegIx} {n : Count} (hf : s.faultOf (.drw x y n) = none)
    (h : exec (.drw x y n) s = .next t) : Frame { regs := (· = vf), display := True } s t := by
  obtain hn | hn := Nat.eq_zero_or_pos n.val
  · exact frame_of_next h (exec_drw_of_zero x y hn)
      { frame_setReg s vf _ with display := fun hd => absurd trivial hd }
  · exact frame_of_next h (exec_drw_of_lt x y hn (lt_of_not_ge fun hle => not_of_ite_none hf ⟨hn, hle⟩))
      (frame_draw s x y n.val)

/-- An instruction that does not fault changes nothing outside its footprint. -/
theorem frame_of_exec (hf : s.faultOf i = none) (h : exec i s = .next t) : Frame (s.footprint i) s t := by
  cases i with
  | cls => exact frame_of_next h (exec_cls s) (frame_setFb_invalidate s _ _)
  | sys nnn =>
    exact frame_of_next h (exec_sys_of_lenient nnn (Bool.eq_false_iff.mpr (not_of_ite_none hf))) (frame_refl _ s)
  | ret => exact frame_of_next h (exec_ret_of_ne (not_of_ite_none hf)) (frame_setPc_pop s _)
  | call nnn => exact frame_of_next h (exec_call_of_ne nnn (not_of_ite_none hf)) (frame_push_setPc s _ _)
  | jp nnn => exact frame_of_next h (exec_jp s nnn) (frame_setPc s _)
  | jpV0 nnn => exact frame_of_next h (exec_jpV0 s nnn) (frame_setPc s _)
  | seImm x nn => exact frame_of_next h (exec_seImm s x nn) (frame_skipIf s _)
  | sneImm x nn => exact frame_of_next h (exec_sneImm s x nn) (frame_skipIf s _)
  | seReg x y => exact frame_of_next h (exec_seReg s x y) (frame_skipIf s _)
  | sneReg x y => exact frame_of_next h (exec_sneReg s x y) (frame_skipIf s _)
  | skp x => exact frame_of_keySkip (.inl rfl) h
  | sknp x => exact frame_of_keySkip (.inr rfl) h
  | ldImm x nn => exact frame_of_next h (exec_ldImm s x nn) (frame_setReg s x _)
  | addImm x nn => exact frame_of_next h (exec_addImm s x nn) (frame_setReg s x _)
  | ldReg x y => exact frame_of_next h (exec_ldReg s x y) (frame_setReg s x _)
  | orReg x y => exact frame_of_next h (exec_orReg s x y) (frame_setReg s x _)
  | andReg x y => exact frame_of_next h (exec_andReg s x y) (frame_setReg s x _)
  | xorReg x y => exact frame_of_next h (exec_xorReg s x y) (frame_setReg s x _)
  | ldVxDt x => exact frame_of_next h (exec_ldVxDt s x) (frame_setReg s x _)
  | addReg x y => exact frame_of_next h (exec_addReg s x y) (frame_setRegFlag s x _ _)
  | sub x y => exact frame_of_next h (exec_sub s x y) (frame_setRegFlag s x _ _)
  | subn x y => exact frame_of_next h (exec_subn s x y) (frame_setRegFlag s x _ _)
  | shr x y => exact frame_of_next h (exec_shr s x y) (frame_setRegFlag s x _ _)
  | shl x y => exact frame_of_next h (exec_shl s x y) (frame_setRegFlag s x _ _)
  | rnd x nn => exact frame_of_next h (exec_rnd s x nn) (frame_drawRnd_setReg s x _)
  | drw x y n => exact frame_of_drw hf h
  | ldI nnn => exact frame_of_next h (exec_ldI s nnn) (frame_setI s _)
  | addI x => exact frame_of_next h (exec_addI s x) (frame_setI s _)
  | ldF x => exact frame_of_next h (exec_ldF s x) (frame_setI s _)
  | ldDtVx x => exact frame_of_next h (exec_ldDtVx s x) (frame_setDelay s _)
  | ldStVx x => exact frame_of_next h (exec_ldStVx s x) (frame_setSound s _)
  | ldVxK x => exact frame_of_next h (exec_ldVxK s x) (frame_setHalt s _)
  | ldB x =>
    exact frame_of_next h (exec_ldB_of_lt (lt_of_not_ge (not_of_ite_none hf)))
      (frame_writeBytes s s.i.toNat (decimalDigits (s.reg x)))
  | storeRegs x =>
    exact frame_of_next h (exec_storeRegs_of_lt (lt_of_not_ge (not_of_ite_none hf)))
      ((frame_storeBlock s x s.i.toNat).advanceI x)
  | loadRegs x =>
    exact frame_of_next h (exec_loadRegs_of_lt (lt_of_not_ge (not_of_ite_none hf)))
      ((frame_loadRegsFrom s x s.i.toNat).advanceI x)

/-- Everything an instruction that answers a next state can have done. -/
theorem exec_next_cases (h : exec i s = .next t) :
    (∃ c, s.faultOf i = some c ∧ t = s.raise c) ∨ (s.faultOf i = none ∧ Frame (s.footprint i) s t) := by
  cases hf : s.faultOf i with
  | some c => exact .inl ⟨c, rfl, Host.Outcome.next.inj (h.symm.trans (exec_of_fault hf))⟩
  | none => exact .inr ⟨rfl, frame_of_exec hf h⟩

theorem not_footprint_fail (s : State) (i : Instr) : ¬ (s.footprint i).fail := by
  cases i <;> exact id

/-- FAIL after an instruction is the code it raises. -/
theorem exec_fail (hs : s.fail = .ok) (h : exec i s = .next t) : t.fail = (s.faultOf i).getD .ok := by
  obtain ⟨c, hf, rfl⟩ | ⟨hf, hframe⟩ := exec_next_cases h
  · rw [hf, raise_fail, Option.getD_some]
  · rw [hf, Option.getD_none, hframe.fail (not_footprint_fail s i), hs]

theorem store_of_footprint_bytes {a : Nat} (h : (s.footprint i).bytes a) : ∃ x, i = .ldB x ∨ i = .storeRegs x := by
  cases i with
  | ldB x => exact ⟨x, .inl rfl⟩
  | storeRegs x => exact ⟨x, .inr rfl⟩
  | _ => exact h.elim

end

/-! ## The stack through an instruction and a cycle (R28) -/

section
variable {s t : State} {i : Instr}

/-- RET moves SP up and leaves the stack; CALL moves SP down; no other instruction touches either. -/
theorem exec_stack_cases (h : exec i s = .next t) :
    (t.sp = s.sp ∧ t.stack = s.stack) ∨ (i = .ret ∧ t.sp = s.sp + 1 ∧ t.stack = s.stack) ∨
      ∃ nnn, i = .call nnn ∧ t.sp = s.sp - 1 := by
  obtain ⟨c, -, rfl⟩ | ⟨hf, hframe⟩ := exec_next_cases h
  · exact .inl ⟨rfl, rfl⟩
  cases i with
  | ret =>
    obtain rfl := Host.Outcome.next.inj ((exec_ret_of_ne (not_of_ite_none hf)).symm.trans h)
    exact .inr (.inl ⟨rfl, rfl, rfl⟩)
  | call nnn =>
    obtain rfl := Host.Outcome.next.inj ((exec_call_of_ne nnn (not_of_ite_none hf)).symm.trans h)
    exact .inr (.inr ⟨nnn, rfl, rfl⟩)
  | _ => exact .inl (hframe.stack id)

@[simp] theorem finish_sp (s : State) (cost : Nat) : (s.finish cost).sp = s.sp := by
  unfold State.finish
  split <;> rfl

@[simp] theorem finish_stack (s : State) (cost : Nat) : (s.finish cost).stack = s.stack := by
  unfold State.finish
  split <;> rfl

theorem keywait_stack (s : State) (r : RegIx) : (s.keywait r).sp = s.sp ∧ (s.keywait r).stack = s.stack := by
  obtain ⟨-, -, h⟩ | ⟨-, h⟩ := keywait_cases s r <;> rw [h] <;> exact ⟨rfl, rfl⟩

/-- A cycle that executes nothing leaves the stack, and one that executes does what the instruction does. -/
theorem step_stack_cases (h : step s = .next t) :
    (t.sp = s.sp ∧ t.stack = s.stack) ∨
      (decode s.fetchWord = .ok .ret ∧ t.sp = s.sp + 1 ∧ t.stack = s.stack) ∨
      ∃ nnn, decode s.fetchWord = .ok (.call nnn) ∧ t.sp = s.sp - 1 := by
  obtain ⟨-, ⟨r, -, rfl⟩ | ⟨-, -, rfl⟩ | ⟨-, -, -, rfl⟩ | ⟨-, -, i, u, hd, hu, rfl⟩⟩ := step_next_cases h
  · exact .inl (keywait_stack s.sampleKeys r)
  · exact .inl ⟨rfl, rfl⟩
  · exact .inl ⟨rfl, rfl⟩
  · rw [finish_sp, finish_stack, hd]
    obtain hkeep | ⟨rfl, hret⟩ | ⟨nnn, rfl, hcall⟩ := exec_stack_cases hu
    · exact .inl hkeep
    · exact .inr (.inl ⟨rfl, hret⟩)
    · exact .inr (.inr ⟨nnn, rfl, hcall⟩)

end

/-! ## The shift profile (R145) -/

/-- The state under another shift profile. -/
def State.withProfile (s : State) (p : ShiftProfile) : State :=
  { s with cfg := { s.cfg with shiftProfile := p } }

/-- The outcome with its next state changed by f. -/
def mapNext (f : State → State) : Result → Result
  | .next s => .next (f s)
  | .fault r => .fault r
  | .refused r => .refused r

section
variable (s : State) (p : ShiftProfile)

theorem withProfile_writeBytes (a : Nat) (bs : List Byte) :
    (s.withProfile p).writeBytes a bs = (s.writeBytes a bs).withProfile p := by
  induction bs generalizing s a with
  | nil => rfl
  | cons b bs ih => exact ih (s.setByte a b) (a + 1)

theorem next_withProfile_skipIf (c : Bool) :
    (.next ((s.withProfile p).skipIf c) : Result) = .next ((s.skipIf c).withProfile p) := by
  cases c <;> rfl

theorem mapNext_ite {f : State → State} {c : Prop} [Decidable c] {a a' b b' : Result} (ha : a' = mapNext f a)
    (hb : b' = mapNext f b) : (if c then a' else b') = mapNext f (if c then a else b) := by
  split
  · exact ha
  · exact hb

theorem withProfile_keySkip {i : Instr} {x : RegIx} (hi : i = .skp x ∨ i = .sknp x) :
    exec i (s.withProfile p) = mapNext (·.withProfile p) (exec i s) := by
  cases hk : s.keydown (s.reg x) with
  | none =>
    have hk' : (s.withProfile p).keydown ((s.withProfile p).reg x) = none := hk
    obtain rfl | rfl := hi
    · rw [exec_skp_of_none hk, exec_skp_of_none hk']; rfl
    · rw [exec_sknp_of_none hk, exec_sknp_of_none hk']; rfl
  | some down =>
    have hk' : (s.withProfile p).keydown ((s.withProfile p).reg x) = some down := hk
    obtain rfl | rfl := hi
    · rw [exec_skp_of_some hk, exec_skp_of_some hk']; exact next_withProfile_skipIf s p _
    · rw [exec_sknp_of_some hk, exec_sknp_of_some hk']; exact next_withProfile_skipIf s p _

/-- Changing the profile and running an instruction commute, but for the shifts. -/
theorem exec_withProfile {i : Instr} (hi : ∀ x y, i ≠ .shr x y ∧ i ≠ .shl x y) :
    exec i (s.withProfile p) = mapNext (·.withProfile p) (exec i s) := by
  cases i with
  | shr x y => exact absurd rfl (hi x y).1
  | shl x y => exact absurd rfl (hi x y).2
  | sys | ret | call => exact mapNext_ite rfl rfl
  | drw => exact mapNext_ite rfl (mapNext_ite rfl rfl)
  | ldB => exact mapNext_ite (congrArg Host.Outcome.next (withProfile_writeBytes s p _ _)) rfl
  | storeRegs x =>
    exact mapNext_ite (congrArg (fun u : State => Host.Outcome.next (u.advanceI x))
      (withProfile_writeBytes s p _ _)) rfl
  | loadRegs => exact mapNext_ite rfl rfl
  | skp => exact withProfile_keySkip s p (.inl rfl)
  | sknp => exact withProfile_keySkip s p (.inr rfl)
  | seImm | sneImm | seReg | sneReg => exact next_withProfile_skipIf s p _
  | _ => rfl

theorem transact_cfg {s t : State} {call : HostCall} (h : transact call s = .next t) : t.cfg = s.cfg := by
  cases call with
  | reset program => exact Host.Outcome.next.inj h ▸ resetWith_cfg s program
  | doCycle => exact step_cfg h
  | validate => exact Host.Outcome.next.inj h ▸ validateDisplay_cfg s

end

/-! ## The obligations -/

/-- Settles O20: the fault of every instruction is `State.raise`, and without one FAIL stays. -/
theorem instructionFaultsArePrecise : Obligations.InstructionFaultsArePrecise := by
  intro i s t hs h ht
  obtain ⟨c, -, rfl⟩ | ⟨-, hframe⟩ := exec_next_cases h
  · rfl
  · exact absurd ((hframe.fail (not_footprint_fail s i)).trans hs) ht

/-- Settles O21: FAIL after an instruction is `State.faultOf`, whose rows are those of the table. -/
theorem faultsAreExactlyTheTable : Obligations.FaultsAreExactlyTheTable := by
  intro i s t hs h
  rw [exec_fail hs h]
  cases i with
  | sys | ret | call | drw | ldB | storeRegs | loadRegs =>
    simp only [State.faultOf]
    split <;> simp_all
  | _ => simp [State.faultOf]

/-- Settles O55: of all cycles, only one that executes CALL writes the stack or moves SP down, and only one that
executes RET moves it up. -/
theorem stackMovesOnlyByCallAndRet : Obligations.StackMovesOnlyByCallAndRet := by
  intro s t h
  obtain ⟨hsp, hstack⟩ | ⟨hd, hsp, hstack⟩ | ⟨nnn, hd, hsp⟩ := step_stack_cases h
  · exact ⟨fun hne => absurd hstack hne, fun hlt => by omega, fun hlt => by omega⟩
  · exact ⟨fun hne => absurd hstack hne, fun hlt => by omega, fun _ => hd⟩
  · exact ⟨fun _ => ⟨nnn, hd⟩, fun _ => ⟨nnn, hd⟩, fun hlt => by omega⟩

/-- Settles O38: a change of the profile commutes with every instruction but the shifts, and no instruction and no
transaction writes the configuration. -/
theorem onlyShiftsReadTheProfile : Obligations.OnlyShiftsReadTheProfile := by
  refine ⟨fun i s t p hi h => ?_, fun i s t h => congrArg Config.shiftProfile (keepsConfig_exec i s t h),
    fun _ _ _ => transact_cfg⟩
  have hp := exec_withProfile s p hi
  rwa [h] at hp

/-- Settles O56: a byte that changed lies in the instruction's footprint, and only the two stores have bytes there. -/
theorem onlyStoresWriteMemory : Obligations.OnlyStoresWriteMemory := by
  rintro i s t h ⟨a, ha⟩
  obtain ⟨c, -, rfl⟩ | ⟨-, hframe⟩ := exec_next_cases h
  · exact absurd rfl ha
  · exact store_of_footprint_bytes (by_contra fun hout => ha (hframe.bytes a hout))

end Sys2Proof.Machine
end

section
/-! PROOFS. The invariant of the machine and the images a reset leaves (10_state.md, 20_memory.md,
70_reset_and_hazards.md): that instructions, cycles and transactions keep the invariant, the two kinds of load, and the
obligations O17, O18, O19, O58 and O59. -/

namespace Sys2Proof.Machine

/-! ## The invariant through an instruction -/

/-- If the outcome is a next state, it meets the invariant. -/
def AnswersInv (o : Result) : Prop := ∀ t, o = .next t → t.Inv

section
variable {s t : State} {a b : Result}

theorem AnswersInv.next (h : s.Inv) : AnswersInv (.next s) := fun _ ht => Host.Outcome.next.inj ht ▸ h

theorem AnswersInv.ite {c : Prop} [Decidable c] (ha : c → AnswersInv a) (hb : ¬ c → AnswersInv b) :
    AnswersInv (if c then a else b) := by
  split
  · exact ha ‹c›
  · exact hb ‹¬ c›

theorem inv_raise (hs : s.Inv) (c : FailCode) : (s.raise c).Inv := inv_of_eq hs rfl rfl rfl rfl rfl

theorem inv_skipIf (hs : s.Inv) (c : Bool) : (s.skipIf c).Inv := by
  cases c <;> exact inv_of_eq hs rfl rfl rfl rfl rfl

theorem inv_setPc_pop (hs : s.Inv) (w : Word) (hne : s.sp ≠ s.cfg.stackDepth) : ((s.setPc w).pop).Inv := by
  obtain ⟨hcfg, hsp, hrest⟩ := hs
  exact ⟨hcfg, lt_of_le_of_ne hsp hne, hrest⟩

theorem inv_push_setPc (hs : s.Inv) (w p : Word) : ((s.push w).setPc p).Inv := by
  obtain ⟨hcfg, hsp, hlen, hrest⟩ := hs
  exact ⟨hcfg, (Nat.sub_le _ _).trans hsp, (List.length_set ..).trans hlen, hrest⟩

theorem inv_setFb (hs : s.Inv) {fb : Framebuffer} (hfb : Framebuffer.Shaped s.cfg.displayW s.cfg.displayH fb) :
    (s.setFb fb).Inv := by
  obtain ⟨hcfg, hsp, hlen, hwf, hlist, -⟩ := hs
  exact ⟨hcfg, hsp, hlen, hwf, hlist, hfb⟩

theorem inv_cleared (hs : s.Inv) :
    ((s.setFb (blankPixels s.cfg.displayW s.cfg.displayH)).invalidate .whole).Inv :=
  inv_of_eq (inv_setFb hs (blankPixels_shaped _ _)) rfl rfl rfl rfl rfl

theorem inv_draw (hs : s.Inv) (x y : RegIx) (n : Nat) : (s.draw x y n).Inv := by
  obtain ⟨-, -, -, -, -, hfb⟩ := id hs
  exact inv_of_eq (inv_setFb hs (drawn_draw hfb x y n).shaped) rfl rfl rfl rfl rfl

theorem inv_advanceI (hs : s.Inv) (x : RegIx) : (s.advanceI x).Inv := inv_of_eq hs rfl rfl rfl rfl rfl

theorem inv_loadRegsFrom (hs : s.Inv) (k : Nat) (x : RegIx) : (s.loadRegsFrom k x).Inv :=
  inv_of_eq hs (loadRegsFrom_cfg s k x) (loadRegsFrom_sp s k x) (loadRegsFrom_stack s k x) (loadRegsFrom_mem s k x)
    (loadRegsFrom_fb s k x)

/-- A run of stores inside memory keeps the canonical form and lists existing addresses only. -/
theorem inv_writeBytes (hs : s.Inv) {k : Nat} {bs : List Byte} (hle : k + bs.length ≤ s.cfg.memSize) :
    (s.writeBytes k bs).Inv := by
  obtain ⟨hcfg, hsp, hlen, hwf, hlist, hfb⟩ := hs
  rw [writeBytes_eq]
  refine ⟨hcfg, hsp, hlen, writeBytes_wf s k bs hwf, fun c hc => ?_, hfb⟩
  obtain ⟨-, hlt⟩ | hc := mem_writeBytes s k bs hc
  · exact hlt.trans_le hle
  · exact hlist c hc

theorem answersInv_keySkip (hs : s.Inv) {i : Instr} {x : RegIx} (hi : i = .skp x ∨ i = .sknp x) :
    AnswersInv (exec i s) := fun t h => by
  obtain ⟨c, rfl⟩ := exists_skipIf_of_keySkip hi h
  exact inv_skipIf hs c

theorem answersInv_drw (hs : s.Inv) (x y : RegIx) (n : Count) : AnswersInv (exec (.drw x y n) s) :=
  .ite (fun _ => .next (inv_of_eq hs rfl rfl rfl rfl rfl))
    fun _ => .ite (fun _ => .next (inv_draw hs x y n.val)) fun _ => .next (inv_raise hs _)

theorem answersInv_ldB (hs : s.Inv) (x : RegIx) : AnswersInv (exec (.ldB x) s) :=
  .ite (fun hr => .next (inv_writeBytes hs ((inRange_digits_iff s).mp hr))) fun _ => .next (inv_raise hs _)

theorem answersInv_storeRegs (hs : s.Inv) (x : RegIx) : AnswersInv (exec (.storeRegs x) s) := by
  refine .ite (fun hr => .next ?_) fun _ => .next (inv_raise hs _)
  have hle : s.i.toNat + (s.regsThrough x).length ≤ s.cfg.memSize := by
    rw [regsThrough_length]
    exact (inRange_block_iff s x).mp hr
  exact inv_advanceI (inv_writeBytes hs hle) x

/-- An instruction writes the stack, memory and framebuffer through the operations above, or not at all. -/
theorem answersInv_exec (hs : s.Inv) (i : Instr) : AnswersInv (exec i s) := by
  cases i with
  | cls => exact .next (inv_cleared hs)
  | sys nnn => exact .ite (fun _ => .next (inv_raise hs _)) fun _ => .next hs
  | ret => exact .ite (fun _ => .next (inv_raise hs _)) fun hne => .next (inv_setPc_pop hs _ hne)
  | call nnn => exact .ite (fun _ => .next (inv_raise hs _)) fun _ => .next (inv_push_setPc hs _ _)
  | drw x y n => exact answersInv_drw hs x y n
  | ldB x => exact answersInv_ldB hs x
  | storeRegs x => exact answersInv_storeRegs hs x
  | loadRegs x =>
    exact .ite (fun _ => .next (inv_advanceI (inv_loadRegsFrom hs _ x) x)) fun _ => .next (inv_raise hs _)
  | skp x => exact answersInv_keySkip hs (.inl rfl)
  | sknp x => exact answersInv_keySkip hs (.inr rfl)
  | seImm | sneImm | seReg | sneReg => exact .next (inv_skipIf hs _)
  | _ => exact .next (inv_of_eq hs rfl rfl rfl rfl rfl)

end

/-! ## The invariant through a cycle -/

section
variable {s t : State}

theorem inv_keywait (hs : s.Inv) (r : RegIx) : (s.keywait r).Inv := by
  obtain ⟨-, -, h⟩ | ⟨-, h⟩ := keywait_cases s r <;> rw [h]
  · exact inv_of_eq hs rfl rfl rfl rfl rfl
  · exact hs

theorem inv_finish (hs : s.Inv) (cost : Nat) : (s.finish cost).Inv := by
  unfold State.finish
  split <;> exact inv_of_eq hs rfl rfl rfl rfl rfl

theorem inv_step (hs : s.Inv) (h : step s = .next t) : t.Inv := by
  have hsample : s.sampleKeys.Inv := inv_of_eq hs rfl rfl rfl rfl rfl
  obtain ⟨-, ⟨r, -, rfl⟩ | ⟨-, -, rfl⟩ | ⟨-, -, -, rfl⟩ | ⟨-, -, i, u, -, hu, rfl⟩⟩ := step_next_cases h
  · exact inv_of_eq (inv_keywait hsample r) rfl rfl rfl rfl rfl
  · exact inv_of_eq hs rfl rfl rfl rfl rfl
  · exact inv_of_eq hs rfl rfl rfl rfl rfl
  · exact inv_finish (answersInv_exec (s := s.sampleKeys.afterFetch) (inv_of_eq hs rfl rfl rfl rfl rfl) i u hu) _

end

/-! ## The two kinds of load (R41, R51, R264, R265) -/

/-- The state between a reset's validation and its program, with no byte listed. -/
def State.cleared (s : State) (code : FailCode) : State :=
  { s with
    wasReset := true, v := Vector.replicate 16 0, pc := BitVec.ofNat 16 progStart, i := 0,
    sp := s.cfg.stackDepth, stack := List.replicate s.cfg.stackDepth 0,
    delay := ⟨0, 0⟩, sound := ⟨0, 0⟩, cyc := 0, halt := none, kbd := 0, kbdPrev := 0, fail := code, mem := [] }

section
variable (s : State) {p : List Byte} {code : FailCode}

theorem resetWith_of_ok (h : (s.resetWith p).fail = .ok) :
    s.resetWith p = { (s.cleared .ok).writeBytes progStart p with
      fb := s.cfg.fb0, frameUpdated := Config.freeFlag s.freeDraws, freeDraws := s.freeDraws + 1 } := by
  rw [resetWith_fail] at h
  unfold State.resetWith State.cleared
  simp only [h, if_true]

theorem resetWith_of_ne (h : (s.resetWith p).fail ≠ .ok) :
    s.resetWith p = ((s.cleared (s.resetWith p).fail).setFb
      (blankPixels s.cfg.displayW s.cfg.displayH)).invalidate .whole := by
  rw [resetWith_fail] at h ⊢
  unfold State.resetWith State.cleared
  simp only [h, if_false]

theorem resetValues_cleared (code : FailCode) : ResetValues s.cfg (s.cleared code) where
  cfg := rfl
  wasReset := rfl
  regs r := by simp [State.reg, State.cleared]
  index := rfl
  pc := rfl
  stack := ⟨rfl, rfl⟩
  timers := ⟨rfl, rfl⟩
  cyc := rfl
  halt := rfl
  keys := ⟨rfl, rfl⟩

theorem byte_cleared (code : FailCode) (a : Nat) : (s.cleared code).byte a = background s.cfg a := rfl

theorem wf_cleared (code : FailCode) : Memory.wf (s.cleared code).cfg (s.cleared code).mem :=
  ⟨.nil, fun _ hc => nomatch hc⟩

variable {s}

theorem background_of_lt {cfg : Config} {a : Nat} (h : a < 80) : background cfg a = cfg.font.getD a 0 := if_pos h

theorem background_of_le {cfg : Config} {a : Nat} (h : 80 ≤ a) : background cfg a = 0 := if_neg h.not_gt

/-- Storing the program and writing the display leave the values of R41. -/
theorem ResetValues.of_ok (h : (s.resetWith p).fail = .ok) : ResetValues s.cfg (s.resetWith p) := by
  rw [resetWith_of_ok s h, writeBytes_eq]
  exact { resetValues_cleared s .ok with }

theorem ResetValues.of_ne (h : (s.resetWith p).fail ≠ .ok) : ResetValues s.cfg (s.resetWith p) := by
  rw [resetWith_of_ne s h]
  exact { resetValues_cleared s (s.resetWith p).fail with }

/-- The memory image of a successful load: the program over the background. -/
theorem byte_resetWith_of_ok (h : (s.resetWith p).fail = .ok) (a : Nat) :
    (s.resetWith p).byte a = ((s.cleared .ok).writeBytes progStart p).byte a := by
  rw [resetWith_of_ok s h]
  rfl

theorem byte_program_below {a : Nat} (h : a < 0x200) :
    ((s.cleared .ok).writeBytes progStart p).byte a = background s.cfg a := by
  rw [byte_writeBytes_outside _ _ _ (by rw [progStart]; omega), byte_cleared]

theorem byte_program {a : Nat} (h : 0x200 ≤ a) :
    ((s.cleared .ok).writeBytes progStart p).byte a = p.getD (a - 0x200) 0 := by
  by_cases hk : a - 0x200 < p.length
  · have hbyte := byte_writeBytes_inside (s.cleared .ok) progStart p (wf_cleared s .ok) hk
    rwa [progStart, Nat.add_sub_cancel' h, ← List.getD_eq_getElem p 0 hk] at hbyte
  · rw [byte_writeBytes_outside _ _ _ (by rw [progStart]; omega), byte_cleared, background_of_le (by omega),
      List.getD_eq_default _ _ (by omega)]

theorem byte_resetWith_of_ne (h : (s.resetWith p).fail ≠ .ok) (a : Nat) :
    (s.resetWith p).byte a = background s.cfg a := by
  rw [resetWith_of_ne s h]
  rfl

theorem step_of_not_ok (hr : s.wasReset = true) (hf : s.fail ≠ .ok) : step s = .fault (.notOk s.fail) := by
  simp [step, doCycle, hr, hf]

/-! ## The invariant through a reset -/

theorem length_of_validateLoad {cfg : Config} {len : Nat} (h : validateLoad cfg len = .ok) :
    progStart + len ≤ cfg.memSize := by
  unfold validateLoad at h
  split_ifs at h
  have hstart : progStart = 0x200 := rfl
  omega

theorem inv_cleared_setFb (hc : LegalConfig s.cfg) (code : FailCode) {fb : Framebuffer}
    (hfb : Framebuffer.Shaped s.cfg.displayW s.cfg.displayH fb) : ((s.cleared code).setFb fb).Inv :=
  ⟨hc, le_rfl, List.length_replicate, wf_cleared s code, fun _ hm => absurd hm List.not_mem_nil, hfb⟩

theorem inv_resetWith (hc : LegalConfig s.cfg) (p : List Byte) : (s.resetWith p).Inv := by
  by_cases h : (s.resetWith p).fail = .ok
  · obtain ⟨-, -, -, -, -, -, -, hfb0⟩ := id hc
    have hlen := length_of_validateLoad ((resetWith_fail s p).symm.trans h)
    have hinv := inv_writeBytes (inv_cleared_setFb hc .ok hfb0) hlen
    rw [resetWith_of_ok s h]
    exact inv_of_eq hinv (by simp) (by simp) (by simp)
      (writeBytes_mem_congr (s := (s.cleared .ok).setFb s.cfg.fb0) (t := s.cleared .ok) rfl rfl progStart p) (by simp)
  · rw [resetWith_of_ne s h]
    exact inv_of_eq (inv_cleared_setFb hc (s.resetWith p).fail (blankPixels_shaped _ _)) rfl rfl rfl rfl rfl

theorem inv_transact {t : State} {call : HostCall} (hs : s.Inv) (h : transact call s = .next t) : t.Inv := by
  cases call with
  | reset program => exact Host.Outcome.next.inj h ▸ inv_resetWith hs.1 program
  | doCycle => exact inv_step hs h
  | validate => exact Host.Outcome.next.inj h ▸ inv_of_eq hs rfl rfl rfl rfl rfl

end

/-! ## The obligations -/

/-- Settles O17: every branch of a cycle, and every instruction it runs, keeps the invariant. -/
theorem stepKeepsInvariant : Obligations.StepKeepsInvariant := fun _ _ => inv_step

/-- Settles O19: a reset builds the invariant from the configuration, a cycle keeps it, and a validation touches
nothing it speaks of. -/
theorem transactionsEstablishInvariant : Obligations.TransactionsEstablishInvariant :=
  ⟨fun _ p hc => inv_resetWith hc p, fun _ _ _ => inv_transact, fun _ => rfl⟩

/-- Settles O58: a failed load is the cleared state with a blank, wholly invalidated display. -/
theorem failedLoadLeavesABlankScreen : Obligations.FailedLoadLeavesABlankScreen := by
  intro s p h
  have hvalues := ResetValues.of_ne h
  refine ⟨hvalues, fun a ha => ?_, fun a ha => ?_, fun px py => ?_, ?_, ?_, step_of_not_ok hvalues.wasReset h⟩
  · rw [byte_resetWith_of_ne h, background_of_lt ha]
  · rw [byte_resetWith_of_ne h, background_of_le ha]
  all_goals rw [resetWith_of_ne s h]
  · exact pixel_blankPixels _ _ px py
  · rfl
  · rfl

/-- Settles O59: a successful load is the cleared state with the program stored from PROG_START on. -/
theorem successfulLoadImage : Obligations.SuccessfulLoadImage := by
  intro s p h
  have hvalues := ResetValues.of_ok h
  refine ⟨hvalues, ⟨⟨hvalues.wasReset, h⟩, hvalues.halt⟩, fun a ha => ?_, fun a ha hlt => ?_, fun a ha => ?_, ?_⟩
  · rw [byte_resetWith_of_ok h, byte_program_below (by omega), background_of_lt ha]
  · rw [byte_resetWith_of_ok h, byte_program_below hlt, background_of_le ha]
  · rw [byte_resetWith_of_ok h, byte_program ha]
  · rw [resetWith_of_ok s h]

/-- Settles O18: the launch state is one closed state, whose configuration and shapes are evaluated. -/
theorem resetStateMeetsInvariant : Obligations.ResetStateMeetsInvariant := by
  unfold Obligations.ResetStateMeetsInvariant
  decide

end Sys2Proof.Machine
end

section
/-! PROOFS. The cycle of 40_cycle.md: its branches and its end, the key-wait of 45_timers_keys.md, and the obligations
O5 to O15. -/

namespace Sys2Proof.Machine

/-! ## The end of a cycle (R96, R97, R213) -/

section
variable {s : State} (cost : Nat)

theorem finish_of_ok (h : s.fail = .ok) : s.finish cost = s.endCycle cost := if_pos h

theorem finish_of_ne (h : s.fail ≠ .ok) : s.finish cost = s.endFaulted := if_neg h

theorem refresh_of_due {t : Timer} {cyc period : Nat} (hv : t.value ≠ 0) (hd : t.deadline ≤ cyc) :
    t.refresh cyc period = ⟨t.value - 1, cyc + period⟩ := if_pos ⟨hv, hd⟩

theorem refresh_of_not_due {t : Timer} {cyc period : Nat} (h : t.value = 0 ∨ cyc < t.deadline) :
    t.refresh cyc period = t :=
  if_neg fun ⟨hv, hd⟩ => h.elim hv fun hlt => hlt.not_ge hd

theorem byte_sub_one_toNat {b : Byte} (h : b ≠ 0) : (b - 1).toNat = b.toNat - 1 := by
  have hpos : 0 < b.toNat := Nat.pos_of_ne_zero fun hz => h (BitVec.eq_of_toNat_eq hz)
  exact BitVec.toNat_sub_of_le (show 1 ≤ b.toNat from hpos)

end

/-! ## The branches of a cycle (R93, R94, R98) -/

section
variable {s t : State} {r : RegIx}

/-- A running core whose opcode decodes runs the instruction after the sample and the fetch. -/
theorem step_of_decode {i : Instr} (h : s.Running) (hpc : s.pc.toNat + 1 < s.cfg.memSize)
    (hd : decode s.fetchWord = .ok i) :
    step s = finishCycle (costOf s.cfg s.fetchWord) (exec i s.sampleKeys.afterFetch) :=
  (step_running h).trans (runCycle_ok (s := s.sampleKeys) ((fetchable_iff s).mpr hpc) hd)

theorem step_of_unexpected {e : DecodeError} (h : s.Running) (hpc : s.pc.toNat + 1 < s.cfg.memSize)
    (hd : decode s.fetchWord = .error e) :
    step s = .next (s.sampleKeys.afterFetch.raise .unexpectedOpcode).endFaulted :=
  (step_running h).trans (runCycle_error (s := s.sampleKeys) ((fetchable_iff s).mpr hpc) hd)

theorem step_of_unfetchable (h : s.Running) (hpc : s.cfg.memSize ≤ s.pc.toNat + 1) :
    step s = .next (s.sampleKeys.raise .indexOutOfBounds).endFaulted :=
  (step_running h).trans (if_neg (mt (fetchable_iff s).mp hpc.not_gt))

/-- A running core's cycle answers a next state, or its instruction is a key skip that R203 refuses. -/
theorem step_running_cases (h : s.Running) : (∃ t, step s = .next t) ∨ ∃ x, s.RefusedKeySkip x := by
  obtain hpc | hpc := lt_or_ge (s.pc.toNat + 1) s.cfg.memSize
  swap
  · exact .inl ⟨_, step_of_unfetchable h hpc⟩
  cases hd : decode s.fetchWord with
  | error e => exact .inl ⟨_, step_of_unexpected h hpc hd⟩
  | ok i =>
    obtain ⟨u, hu⟩ | ⟨x, hi, hkey, -⟩ := exec_cases i s.sampleKeys.afterFetch
    · exact .inl ⟨_, (step_of_decode h hpc hd).trans (congrArg (finishCycle _) hu)⟩
    · obtain ⟨hpolicy, hle⟩ := (keydown_eq_none_iff _ _).mp hkey
      exact .inr ⟨x, hpolicy, h.2, hpc, hle,
        hi.imp (fun he => hd.trans (congrArg _ he)) fun he => hd.trans (congrArg _ he)⟩

/-- The refusal of R203 names the register's value. -/
theorem step_of_refusedKeySkip {x : RegIx} (hok : s.Ok) (h : s.RefusedKeySkip x) :
    step s = .refused (.keyIndex (s.reg x)) := by
  obtain ⟨hpolicy, hhalt, hpc, hle, hd⟩ := h
  have hkey : s.sampleKeys.afterFetch.keydown (s.sampleKeys.afterFetch.reg x) = none :=
    (keydown_eq_none_iff _ _).mpr ⟨hpolicy, hle⟩
  obtain hd | hd := hd
  · exact (step_of_decode ⟨hok, hhalt⟩ hpc hd).trans (congrArg (finishCycle _) (exec_skp_of_none hkey))
  · exact (step_of_decode ⟨hok, hhalt⟩ hpc hd).trans (congrArg (finishCycle _) (exec_sknp_of_none hkey))

/-! ## The key-wait (R221, R222) -/

/-- The release writes the lowest key of KBD_PREV. -/
theorem step_of_release (h : s.Awaiting r) (hprev : s.kbdPrev ≠ 0) (hkeys : s.keypad.sample = 0) :
    step s = .next (((s.sampleKeys.setReg r (BitVec.ofNat 8 (lowbit s.kbdPrev))).setHalt none).endCycle
      s.cfg.keywaitCost) :=
  (step_awaiting h).trans (congrArg (fun u : State => Host.Outcome.next (u.endCycle s.cfg.keywaitCost))
    (if_pos ⟨hprev, hkeys⟩))

theorem step_of_wait (h : s.Awaiting r) (hno : ¬ (s.kbdPrev ≠ 0 ∧ s.keypad.sample = 0)) :
    step s = .next (s.sampleKeys.endCycle s.cfg.keywaitCost) :=
  (step_awaiting h).trans (congrArg (fun u : State => Host.Outcome.next (u.endCycle s.cfg.keywaitCost))
    (if_neg hno))

theorem lowbit_toByte_toNat {m : Word} (h : m ≠ 0) : (BitVec.ofNat 8 (lowbit m)).toNat = lowbit m := by
  have hlt := (lowbit_spec h).1
  exact Nat.mod_eq_of_lt (by omega)

end

/-! ## The obligations -/

/-- Settles O9: the branch of a word that does not decode is the sample, the fetch, the fault and its end. -/
theorem unexpectedWordFaults : Obligations.UnexpectedWordFaults :=
  fun _ _ h hpc hd => ⟨_, step_of_unexpected h hpc hd, rfl, rfl, rfl, rfl⟩

/-- Settles O10: the branch of a fetch out of range is the sample, the fault and its end. -/
theorem fetchOutOfRangeFaults : Obligations.FetchOutOfRangeFaults :=
  fun _ h hpc => ⟨_, step_of_unfetchable h hpc, rfl, rfl, rfl⟩

/-- Settles O12: a waiting core's cycle always completes, and a running core's but for the refused key skip. -/
theorem everyOkCycleCompletes : Obligations.EveryOkCycleCompletes := by
  refine fun s hok => ⟨fun hno => ?_, fun x => step_of_refusedKeySkip hok⟩
  cases hh : s.halt with
  | some r => exact ⟨_, step_awaiting ⟨hok, hh⟩⟩
  | none => exact (step_running_cases ⟨hok, hh⟩).resolve_right hno

/-- Settles O13: a waiting core's cycle is the sample, then perhaps the release, then the bookkeeping. -/
theorem keywaitCycleFetchesNothing : Obligations.KeywaitCycleFetchesNothing := by
  intro s r h
  by_cases hrel : s.kbdPrev ≠ 0 ∧ s.keypad.sample = 0
  · refine ⟨_, step_of_release h hrel.1 hrel.2, rfl, rfl, rfl, rfl, rfl, rfl, rfl, rfl, rfl, rfl, rfl, rfl, rfl, rfl,
      rfl, rfl, rfl, fun a => rfl, fun q hq => ?_, .inr ⟨rfl, hrel⟩⟩
    exact reg_setReg_ne s.sampleKeys _ hq
  · exact ⟨_, step_of_wait h hrel, rfl, rfl, rfl, rfl, rfl, rfl, rfl, rfl, rfl, rfl, rfl, rfl, rfl, rfl, rfl, rfl, rfl,
      fun a => rfl, fun q hq => rfl, .inl ⟨h.2, rfl⟩⟩

/-- Settles O14: the release writes `lowbit` of KBD_PREV, which fits a byte. -/
theorem keywaitReleaseWritesTheKey : Obligations.KeywaitReleaseWritesTheKey := by
  refine fun s t r h hstep => ⟨fun hprev hkeys => ?_, fun hno => ?_⟩
  · rw [step_of_release h hprev hkeys] at hstep
    obtain rfl := Host.Outcome.next.inj hstep
    obtain ⟨-, hset, hclear⟩ := lowbit_spec hprev
    refine ⟨rfl, ?_⟩
    simp only [endCycle_reg, setHalt_reg, reg_setReg_self, lowbit_toByte_toNat hprev]
    exact ⟨hset, hclear⟩
  · rw [step_of_wait h fun ⟨hprev, hkeys⟩ => hno.elim hprev (· hkeys)] at hstep
    obtain rfl := Host.Outcome.next.inj hstep
    exact ⟨h.2, rfl⟩

/-- Settles O5: the fetched word is the two bytes at PC, and the state run is the sampled one past the fetch. -/
theorem stepRunsTheDecodedInstruction : Obligations.StepRunsTheDecodedInstruction :=
  fun _ _ => step_of_decode

/-- Settles O6: with FAIL at OK the cycle's end is `State.endCycle`. -/
theorem completedCycleBookkeeping : Obligations.CompletedCycleBookkeeping :=
  fun _ cost h => ⟨_, congrArg Host.Outcome.next (finish_of_ok cost h), rfl, rfl, rfl, rfl, rfl, rfl⟩

/-- Settles O7: with any other FAIL the cycle's end is `State.endFaulted`. -/
theorem faultedCycleDoesNoBookkeeping : Obligations.FaultedCycleDoesNoBookkeeping :=
  fun _ cost h => ⟨_, congrArg Host.Outcome.next (finish_of_ne cost h), rfl⟩

/-- Settles O8: a due timer is not at 0, so its decrement does not wrap. -/
theorem timerRefreshIsSingleDecrement : Obligations.TimerRefreshIsSingleDecrement := by
  refine fun t cyc period => ⟨fun hv hd => ?_, refresh_of_not_due⟩
  rw [refresh_of_due hv hd]
  exact ⟨byte_sub_one_toNat hv, rfl⟩

/-- Settles O11: the gate comes before everything else a step can do. -/
theorem noStepUnlessOk : Obligations.NoStepUnlessOk := fun _ ⟨_, h⟩ => (step_next_cases h).1

/-- Settles O15: the key-wait touches neither timer nor the cycle count, and the cycle ends as any other. -/
theorem timersRunDuringKeywait : Obligations.TimersRunDuringKeywait := by
  intro s r h
  by_cases hrel : s.kbdPrev ≠ 0 ∧ s.keypad.sample = 0
  · exact ⟨_, step_of_release h hrel.1 hrel.2, rfl, rfl⟩
  · exact ⟨_, step_of_wait h hrel, rfl, rfl⟩

end Sys2Proof.Machine
end
